-- ==== Sys2Proof/Word.lean ====
section
/-! DEFINITION. The word types of the machine: R5 (16-bit data and addresses), R7 (eight registers), R60 (bytes). -/

namespace Sys2Proof

/-- The one data width: registers, PC, memory words, addresses and instruction words (R5, R6). -/
abbrev Word := BitVec 16

/-- The unit of the I/O channel (R60). -/
abbrev Byte := BitVec 8

/-- A general register's number, `R0` to `R7`; no other index exists (R7, R21). -/
abbrev Reg := Fin 8

end Sys2Proof
end

