-- ==== Sys2Proof/Syntax.lean ====
section
/-! DEFINITION. The instructions: one constructor per row of spec/opcode_table.json (R88), and the sixteen opcode
tags of R72. Ignored bits are no part of an instruction (R87). -/

namespace Sys2Proof

/-- The 16 tagged opcode variants, in the order of R72. -/
inductive Opcode where
  | br | add | ld | st | jsr | and | ldr | str | rti | not | ldi | sti | jmp | res | lea | trap
deriving DecidableEq, Repr

/-- One constructor per row of the opcode table. Operand names are those of the formats R76 to R86. -/
inductive Instr where
  /-- BR, format BRF (R79, R121). -/
  | br (n z p : Bool) (pcOffset9 : BitVec 9)
  /-- ADD, register form OPR (R76, R100). -/
  | addReg (dr sr1 sr2 : Reg)
  /-- ADD, immediate form OPI (R77, R101). -/
  | addImm (dr sr1 : Reg) (imm5 : BitVec 5)
  /-- LD, format PCR (R83, R142). -/
  | ld (dr : Reg) (pcOffset9 : BitVec 9)
  /-- ST, format PCR (R83, R146). -/
  | st (sr : Reg) (pcOffset9 : BitVec 9)
  /-- JSR, format JL, longFlag 1 (R81, R123). -/
  | jsr (pcOffset11 : BitVec 11)
  /-- JSRR, format JLR, longFlag 0 (R82, R124). -/
  | jsrr (baseR : Reg)
  /-- AND, register form OPR (R76, R102). -/
  | andReg (dr sr1 sr2 : Reg)
  /-- AND, immediate form OPI (R77, R103). -/
  | andImm (dr sr1 : Reg) (imm5 : BitVec 5)
  /-- LDR, format BOF (R84, R144). -/
  | ldr (dr baseR : Reg) (offset6 : BitVec 6)
  /-- STR, format BOF (R84, R148). -/
  | str (sr baseR : Reg) (offset6 : BitVec 6)
  /-- RTI, reserved (R86, R178). -/
  | rti
  /-- NOT, format UN (R78, R104). -/
  | not (dr sr : Reg)
  /-- LDI, format PCR (R83, R143). -/
  | ldi (dr : Reg) (pcOffset9 : BitVec 9)
  /-- STI, format PCR (R83, R147). -/
  | sti (sr : Reg) (pcOffset9 : BitVec 9)
  /-- JMP, and RET when BaseR is R7 (R80, R122). -/
  | jmp (baseR : Reg)
  /-- RES, reserved (R86, R179). -/
  | res
  /-- LEA, format PCR (R83, R145). -/
  | lea (dr : Reg) (pcOffset9 : BitVec 9)
  /-- TRAP x20, GETC (R85, R171). -/
  | trapGetc
  /-- TRAP x21, OUT (R85, R172). -/
  | trapOut
  /-- TRAP x22, PUTS (R85, R173). -/
  | trapPuts
  /-- TRAP x23, IN (R85, R174). -/
  | trapIn
  /-- TRAP x24, PUTSP (R85, R175). -/
  | trapPutsp
  /-- TRAP x25, HALT (R85, R176). -/
  | trapHalt
  /-- TRAP with a code that names no service (R85, R177); `WellFormed` excludes the six service codes. -/
  | trapUnknown (trapcode : BitVec 8)
deriving DecidableEq, Repr

end Sys2Proof
end

