-- ==== Sys2Proof/WellFormed.lean ====
section
/-! DEFINITION. Which instruction terms stand for words. Every field's type already bounds it (R73, R74); the one
check left is that the unknown-code TRAP row applies only where no service row does (R88). -/

namespace Sys2Proof

/-- The trap codes 0x20 to 0x25 that name a service (R170). -/
def isServiceCode (code : BitVec 8) : Bool :=
  decide (0x20#8 ≤ code) && decide (code ≤ 0x25#8)

/-- Well-formed: some word decodes to the term. -/
def Instr.WellFormed : Instr → Bool
  | .br _ _ _ _ => true
  | .addReg _ _ _ => true
  | .addImm _ _ _ => true
  | .ld _ _ => true
  | .st _ _ => true
  | .jsr _ => true
  | .jsrr _ => true
  | .andReg _ _ _ => true
  | .andImm _ _ _ => true
  | .ldr _ _ _ => true
  | .str _ _ _ => true
  | .rti => true
  | .not _ _ => true
  | .ldi _ _ => true
  | .sti _ _ => true
  | .jmp _ => true
  | .res => true
  | .lea _ _ => true
  | .trapGetc => true
  | .trapOut => true
  | .trapPuts => true
  | .trapIn => true
  | .trapPutsp => true
  | .trapHalt => true
  | .trapUnknown code => !isServiceCode code

end Sys2Proof
end

