-- ==== Sys2Proof/Decode.lean ====
section
/-! DEFINITION. Decoding and encoding (R70 to R89), the opcode table as data, and the host's view of the decoder.
Every 16-bit word decodes to exactly one instruction, so the decoder rejects nothing (R72, R88); the reserved
opcodes decode to instructions of their own, whose meaning is the fatal stop. -/

namespace Sys2Proof

/-- R71, R72: the tag that `ir[15:12]` selects, most significant bit first. -/
def opcodeOf (ir : Word) : Opcode :=
  match ir.getLsbD 15, ir.getLsbD 14, ir.getLsbD 13, ir.getLsbD 12 with
  | false, false, false, false => .br
  | false, false, false, true  => .add
  | false, false, true,  false => .ld
  | false, false, true,  true  => .st
  | false, true,  false, false => .jsr
  | false, true,  false, true  => .and
  | false, true,  true,  false => .ldr
  | false, true,  true,  true  => .str
  | true,  false, false, false => .rti
  | true,  false, false, true  => .not
  | true,  false, true,  false => .ldi
  | true,  false, true,  true  => .sti
  | true,  true,  false, false => .jmp
  | true,  true,  false, true  => .res
  | true,  true,  true,  false => .lea
  | true,  true,  true,  true  => .trap

/-- R73: the register a 3-bit field selects; `lo` is the field's lowest bit. -/
def regField (ir : Word) (lo : Nat) : Reg := (ir.extractLsb' lo 3).toFin

/-- R85, R170: TRAP dispatches on the low 8 bits. -/
def decodeTrap (code : BitVec 8) : Instr :=
  if code = 0x20 then .trapGetc
  else if code = 0x21 then .trapOut
  else if code = 0x22 then .trapPuts
  else if code = 0x23 then .trapIn
  else if code = 0x24 then .trapPutsp
  else if code = 0x25 then .trapHalt
  else .trapUnknown code

/-- The decoder: total on words (R88), with the field positions of R76 to R86 and the selector bits of R87. -/
def decode (ir : Word) : Instr :=
  match opcodeOf ir with
  | .br => .br (ir.getLsbD 11) (ir.getLsbD 10) (ir.getLsbD 9) (ir.extractLsb' 0 9)
  | .add =>
    if ir.getLsbD 5 then .addImm (regField ir 9) (regField ir 6) (ir.extractLsb' 0 5)
    else .addReg (regField ir 9) (regField ir 6) (regField ir 0)
  | .ld => .ld (regField ir 9) (ir.extractLsb' 0 9)
  | .st => .st (regField ir 9) (ir.extractLsb' 0 9)
  | .jsr => if ir.getLsbD 11 then .jsr (ir.extractLsb' 0 11) else .jsrr (regField ir 6)
  | .and =>
    if ir.getLsbD 5 then .andImm (regField ir 9) (regField ir 6) (ir.extractLsb' 0 5)
    else .andReg (regField ir 9) (regField ir 6) (regField ir 0)
  | .ldr => .ldr (regField ir 9) (regField ir 6) (ir.extractLsb' 0 6)
  | .str => .str (regField ir 9) (regField ir 6) (ir.extractLsb' 0 6)
  | .rti => .rti
  | .not => .not (regField ir 9) (regField ir 6)
  | .ldi => .ldi (regField ir 9) (ir.extractLsb' 0 9)
  | .sti => .sti (regField ir 9) (ir.extractLsb' 0 9)
  | .jmp => .jmp (regField ir 6)
  | .res => .res
  | .lea => .lea (regField ir 9) (ir.extractLsb' 0 9)
  | .trap => decodeTrap (ir.extractLsb' 0 8)

/-- A register number as its 3-bit field (R73). -/
def regBits (r : Reg) : BitVec 3 := BitVec.ofFin r

/-- R76, R77: the words of the two operate formats of one opcode. -/
def encodeOpr (op : BitVec 4) (dr sr1 sr2 : Reg) : Word :=
  op ++ regBits dr ++ regBits sr1 ++ 0#3 ++ regBits sr2
def encodeOpi (op : BitVec 4) (dr sr1 : Reg) (imm5 : BitVec 5) : Word :=
  op ++ regBits dr ++ regBits sr1 ++ 1#1 ++ imm5

/-- R83: opcode, register, PCoffset9. -/
def encodePcr (op : BitVec 4) (r : Reg) (off : BitVec 9) : Word := op ++ regBits r ++ off

/-- R84: opcode, register, base register, offset6. -/
def encodeBof (op : BitVec 4) (r base : Reg) (off : BitVec 6) : Word :=
  op ++ regBits r ++ regBits base ++ off

/-- R85: opcode, four ignored bits, trap code. -/
def encodeTrap (code : BitVec 8) : Word := 0xF#4 ++ 0#4 ++ code

/-- The encoder, from the same formats; the ignored bits of R87 are written as zeros (notes/assumptions/16.md). -/
def encode : Instr → Word
  | .br n z p off => 0x0#4 ++ BitVec.ofBool n ++ BitVec.ofBool z ++ BitVec.ofBool p ++ off
  | .addReg dr sr1 sr2 => encodeOpr 0x1 dr sr1 sr2
  | .addImm dr sr1 imm5 => encodeOpi 0x1 dr sr1 imm5
  | .ld dr off => encodePcr 0x2 dr off
  | .st sr off => encodePcr 0x3 sr off
  | .jsr off => 0x4#4 ++ 1#1 ++ off
  | .jsrr base => 0x4#4 ++ 0#3 ++ regBits base ++ 0#6
  | .andReg dr sr1 sr2 => encodeOpr 0x5 dr sr1 sr2
  | .andImm dr sr1 imm5 => encodeOpi 0x5 dr sr1 imm5
  | .ldr dr base off => encodeBof 0x6 dr base off
  | .str sr base off => encodeBof 0x7 sr base off
  | .rti => 0x8#4 ++ 0#12
  | .not dr sr => 0x9#4 ++ regBits dr ++ regBits sr ++ 0#6
  | .ldi dr off => encodePcr 0xA dr off
  | .sti sr off => encodePcr 0xB sr off
  | .jmp base => 0xC#4 ++ 0#3 ++ regBits base ++ 0#6
  | .res => 0xD#4 ++ 0#12
  | .lea dr off => encodePcr 0xE dr off
  | .trapGetc => encodeTrap 0x20
  | .trapOut => encodeTrap 0x21
  | .trapPuts => encodeTrap 0x22
  | .trapIn => encodeTrap 0x23
  | .trapPutsp => encodeTrap 0x24
  | .trapHalt => encodeTrap 0x25
  | .trapUnknown code => encodeTrap code

/-- A row of spec/opcode_table.json: a word belongs to it when `word & mask = value`. -/
structure Row where
  mnemonic : String
  mask : Word
  value : Word
deriving DecidableEq, Repr

/-- The rows of spec/opcode_table.json but its last, in the table's order. -/
def opcodeRows : List Row :=
  [ ⟨"BR", 0xF000, 0x0000⟩, ⟨"ADD", 0xF020, 0x1000⟩, ⟨"ADD", 0xF020, 0x1020⟩, ⟨"LD", 0xF000, 0x2000⟩,
    ⟨"ST", 0xF000, 0x3000⟩, ⟨"JSR", 0xF800, 0x4800⟩, ⟨"JSRR", 0xF800, 0x4000⟩, ⟨"AND", 0xF020, 0x5000⟩,
    ⟨"AND", 0xF020, 0x5020⟩, ⟨"LDR", 0xF000, 0x6000⟩, ⟨"STR", 0xF000, 0x7000⟩, ⟨"RTI", 0xF000, 0x8000⟩,
    ⟨"NOT", 0xF000, 0x9000⟩, ⟨"LDI", 0xF000, 0xA000⟩, ⟨"STI", 0xF000, 0xB000⟩, ⟨"JMP", 0xF000, 0xC000⟩,
    ⟨"RES", 0xF000, 0xD000⟩, ⟨"LEA", 0xF000, 0xE000⟩, ⟨"TRAP_GETC", 0xF0FF, 0xF020⟩,
    ⟨"TRAP_OUT", 0xF0FF, 0xF021⟩, ⟨"TRAP_PUTS", 0xF0FF, 0xF022⟩, ⟨"TRAP_IN", 0xF0FF, 0xF023⟩,
    ⟨"TRAP_PUTSP", 0xF0FF, 0xF024⟩, ⟨"TRAP_HALT", 0xF0FF, 0xF025⟩ ]

/-- The table's last row, which "applies only when no TRAP service row matches" (R88). -/
def unknownTrapRow : Row := ⟨"TRAP__unknown_code", 0xF000, 0xF000⟩

def Row.covers (r : Row) (w : Word) : Bool := decide (w &&& r.mask = r.value)

/-- The rows a word matches, the last row taken only where no other does. -/
def matchingRows (w : Word) : List Row :=
  match opcodeRows.filter (·.covers w) with
  | [] => [unknownTrapRow].filter (·.covers w)
  | rows => rows

/-- The row of the opcode table an instruction belongs to. -/
def Instr.row : Instr → Row
  | .br _ _ _ _ => ⟨"BR", 0xF000, 0x0000⟩
  | .addReg _ _ _ => ⟨"ADD", 0xF020, 0x1000⟩
  | .addImm _ _ _ => ⟨"ADD", 0xF020, 0x1020⟩
  | .ld _ _ => ⟨"LD", 0xF000, 0x2000⟩
  | .st _ _ => ⟨"ST", 0xF000, 0x3000⟩
  | .jsr _ => ⟨"JSR", 0xF800, 0x4800⟩
  | .jsrr _ => ⟨"JSRR", 0xF800, 0x4000⟩
  | .andReg _ _ _ => ⟨"AND", 0xF020, 0x5000⟩
  | .andImm _ _ _ => ⟨"AND", 0xF020, 0x5020⟩
  | .ldr _ _ _ => ⟨"LDR", 0xF000, 0x6000⟩
  | .str _ _ _ => ⟨"STR", 0xF000, 0x7000⟩
  | .rti => ⟨"RTI", 0xF000, 0x8000⟩
  | .not _ _ => ⟨"NOT", 0xF000, 0x9000⟩
  | .ldi _ _ => ⟨"LDI", 0xF000, 0xA000⟩
  | .sti _ _ => ⟨"STI", 0xF000, 0xB000⟩
  | .jmp _ => ⟨"JMP", 0xF000, 0xC000⟩
  | .res => ⟨"RES", 0xF000, 0xD000⟩
  | .lea _ _ => ⟨"LEA", 0xF000, 0xE000⟩
  | .trapGetc => ⟨"TRAP_GETC", 0xF0FF, 0xF020⟩
  | .trapOut => ⟨"TRAP_OUT", 0xF0FF, 0xF021⟩
  | .trapPuts => ⟨"TRAP_PUTS", 0xF0FF, 0xF022⟩
  | .trapIn => ⟨"TRAP_IN", 0xF0FF, 0xF023⟩
  | .trapPutsp => ⟨"TRAP_PUTSP", 0xF0FF, 0xF024⟩
  | .trapHalt => ⟨"TRAP_HALT", 0xF0FF, 0xF025⟩
  | .trapUnknown _ => unknownTrapRow

/-- The bits that decoding and execution ignore in a word that decodes to the instruction (the `x` bits of R76 to
R86, listed in R87). -/
def Instr.ignoredBits : Instr → Word
  | .br _ _ _ _ => 0x0000
  | .addReg _ _ _ => 0x0018
  | .addImm _ _ _ => 0x0000
  | .ld _ _ => 0x0000
  | .st _ _ => 0x0000
  | .jsr _ => 0x0000
  | .jsrr _ => 0x063F
  | .andReg _ _ _ => 0x0018
  | .andImm _ _ _ => 0x0000
  | .ldr _ _ _ => 0x0000
  | .str _ _ _ => 0x0000
  | .rti => 0x0FFF
  | .not _ _ => 0x003F
  | .ldi _ _ => 0x0000
  | .sti _ _ => 0x0000
  | .jmp _ => 0x0E3F
  | .res => 0x0FFF
  | .lea _ _ => 0x0000
  | .trapGetc => 0x0F00
  | .trapOut => 0x0F00
  | .trapPuts => 0x0F00
  | .trapIn => 0x0F00
  | .trapPutsp => 0x0F00
  | .trapHalt => 0x0F00
  | .trapUnknown _ => 0x0F00

/-- The instruction the decoder reads from the first word of a table row: every instruction is one 16-bit word (R70),
so bits above it name no instruction. -/
def decodeTableWord (nbits w : Nat) : Option Instr :=
  if nbits ≤ 16 ∧ w < 2 ^ 16 then some (decode (BitVec.ofNat 16 w)) else none

end Sys2Proof
end

