-- ==== Sys2Proof/Config.lean ====
section
/-! DEFINITION. The named parameters of R8, the one parameter the spec leaves OPEN, and the host's free choices (R238). The values the parameters take
by default are in Machine/Defaults.lean. -/

namespace Sys2Proof

/-- `JSRR_LINK_ORDER` (R8, R124, D12). -/
inductive LinkOrder where
  | linkFirst | targetFirst
deriving DecidableEq, Repr

/-- `GPR_RESET_MODE` (R8, R23, D4). -/
inductive GprResetMode where
  | zero | unwritten
deriving DecidableEq, Repr

/-- The parameters of R8: "A model takes each as an argument". Every step reads them and none writes them. -/
structure Params where
  pcStart : Word
  kbsrAddr : Word
  kbdrAddr : Word
  inPrompt : List Byte
  jsrrLinkOrder : LinkOrder
  gprResetMode : GprResetMode
deriving DecidableEq, Repr

/-- R8: "`KBSR_ADDR` must differ from `KBDR_ADDR`". -/
abbrev Params.wf (p : Params) : Prop := p.kbsrAddr ≠ p.kbdrAddr

/-- FREE VALUE: `IN_PROMPT` is "OPEN, no default" (R8, R174, D14), so nothing is known of these bytes
(notes/assumptions/7.md). -/
opaque Config.inPrompt : List Byte

/-- One answer of the host to a poll or to a blocking read (R60, R238). -/
inductive HostAnswer where
  /-- A byte: a poll and a blocking read take it. -/
  | byte (b : Byte)
  /-- No byte: a poll finds none, a blocking read waits (R47, R61). -/
  | nothing
  /-- End of input or a channel error: a blocking read fails, a poll finds no byte (R60, R204). -/
  | failed
deriving DecidableEq, Repr, Inhabited

/-- FREE VALUE: the host's answers one after another, a draw for each poll and each look of a blocking read, "which
the model takes as input and constrains by nothing" (R47, R238, D27; notes/assumptions/9.md). -/
opaque Config.hostAnswer : Nat → HostAnswer

/-- FREE VALUE: how many writes and flushes the host accepts before it signals an error, `none` for ever, at its choice
(R60, R238, D26; notes/assumptions/10.md). -/
opaque Config.hostAccepts : Option Nat

end Sys2Proof
end

