-- ==== Sys2Proof/Machine/Defaults.lean ====
section
/-! DEFINITION. The defaults of the parameters of R8 and the reset values of R230 as named values. -/

namespace Sys2Proof.Machine

/-- `PC_START` (R8, R27, D5). -/
def defaultPcStart : Word := 0x3000

/-- `KBSR_ADDR`; PRESUMED, the LC-3 convention the spec takes as default (R8, R49, D6; notes/assumptions/6.md). -/
def defaultKbsrAddr : Word := 0xFE00

/-- `KBDR_ADDR`; PRESUMED as above. -/
def defaultKbdrAddr : Word := 0xFE02

/-- The default of every parameter of R8; `IN_PROMPT` has none and stays the free value. -/
def defaultParams : Params where
  pcStart := defaultPcStart
  kbsrAddr := defaultKbsrAddr
  kbdrAddr := defaultKbdrAddr
  inPrompt := Config.inPrompt
  jsrrLinkOrder := .linkFirst
  gprResetMode := .zero

/-- R0 to R7 at reset: the spec's value under `GPR_RESET_MODE = Zero` (R23, D4). DESIGN CHOICE: the model starts them
so under Unwritten too, where no instruction reads it (notes/assumptions/4.md, notes/assumptions/24.md). -/
def resetGpr : Word := 0x0000

/-- What every byte of memory that nothing has written reads as: R43, every word is 0x0000 at reset. -/
def unlistedByte : Byte := 0x00

end Sys2Proof.Machine
end

