-- ==== Sys2Proof/Machine/State.lean ====
section
/-! DEFINITION. The state of the machine (R20 to R36, R40) and of the host's side of the channel (R35, R60), the
reasons a step can stop, and the state after reset (R230). -/

namespace Sys2Proof.Machine

/-- The condition-flag tag, exactly one of three values (R28). -/
inductive Cond where
  | n | z | p
deriving DecidableEq, Repr

/-- The two reserved opcodes, which stay distinguished in the stop reason (R201). -/
inductive ReservedOpcode where
  | rti | res
deriving DecidableEq, Repr

/-- The reasons of R201 for `Fatal(reason)`. -/
inductive FatalReason where
  | illegalOpcode (op : ReservedOpcode)
  | unknownTrap (code : BitVec 8)
  | ioFailure
  | pcCeiling
  | unwrittenRegister (r : Reg)
deriving DecidableEq, Repr

/-- The run state (R34). -/
inductive RunState where
  | running
  | halted
  | fatal (reason : FatalReason)
deriving DecidableEq, Repr

/-- The two services that send a string (R173, R175). -/
inductive StringService where
  | puts | putsp
deriving DecidableEq, Repr

/-- Where a step of the model has stopped inside a service that goes on in the next (R61, R173, R175, R242). The model's
own (notes/assumptions/12.md, notes/assumptions/14.md). -/
inductive Hold where
  /-- GETC waits at `ChanRead`. -/
  | getc
  /-- IN waits at `ChanRead`, its prompt sent. -/
  | inService
  /-- PUTS or PUTSP has read a whole pass over memory with no zero word and reads `next` next. -/
  | string (service : StringService) (next : Word)
deriving DecidableEq, Repr

/-- One event of the output record (R35, R237). -/
inductive OutEvent where
  | byte (b : Byte)
  | flush
deriving DecidableEq, Repr

/-- Memory as cells in one canonical form (`Memory.wf`): the word at `a` is the cells `2 * a` (high byte) and
`2 * a + 1` (low byte), and an unlisted cell reads `unlistedByte` (R40, R43; notes/assumptions/1.md). -/
abbrev Memory := List Host.Cell

/-- Everything the spec gives the machine, and the host's side of the channel as plain data. -/
structure State where
  /-- The parameters of R8: fixed for a machine, held here because a step takes only the state. -/
  params : Params
  /-- R0 to R7 (R20). -/
  regs : Vector Word 8
  /-- Which registers an instruction has written; read only under `GPR_RESET_MODE = Unwritten` (R23). -/
  written : Vector Bool 8
  /-- The program counter (R24). -/
  pc : Word
  /-- COND (R28). -/
  cond : Cond
  /-- The memory array, KBSR and KBDR among its words (R40, R212). -/
  mem : Memory
  /-- The run state (R34). -/
  run : RunState
  /-- The service that goes on in the next step, if any. The model's own. -/
  hold : Option Hold
  /-- FREE VALUE: the host's next answers, where a state names some; the answers after these are `Config.hostAnswer`
  (R35, R47). The model's own; no statement rests on its value. -/
  input : List HostAnswer
  /-- FREE VALUE: how many answers of `Config.hostAnswer` have been taken. The model's own; no statement rests on its
  value. -/
  drawn : Nat
  /-- The bytes and flushes the core has sent, oldest first (R35). -/
  output : List OutEvent
  /-- FREE VALUE: how many more writes and flushes the host accepts before it signals an error; `none` is for ever
  (R60, R238). The model's own; no statement rests on its value. -/
  accepts : Option Nat
deriving DecidableEq, Repr

/-- Why a step answers no next state. -/
inductive Fault where
  /-- `step`, in the terminal state `Halted`: "no step exists" (R34). Safe. -/
  | halted
  /-- `step`, in a terminal state `Fatal(reason)`: no step exists (R34). Safe. -/
  | fatal (reason : FatalReason)
deriving DecidableEq, Repr

/-- Why an instruction has no meaning. -/
inductive Refusal where
  /-- Raised by an arm of `exec` whose instruction is not modelled yet. Safe. No arm raises it. -/
  | notModelled (mnemonic : String)
deriving DecidableEq, Repr

/-- The state after reset under the parameters `p`, before an image is loaded (R230). -/
def State.resetFor (p : Params) : State where
  params := p
  regs := Vector.replicate 8 resetGpr
  written := Vector.replicate 8 false
  pc := p.pcStart
  cond := .z
  mem := []
  run := .running
  hold := none
  input := []
  drawn := 0
  output := []
  accepts := Config.hostAccepts

/-- The state after reset with every parameter at its default. -/
def State.reset : State := State.resetFor defaultParams

end Sys2Proof.Machine
end

