-- ==== Sys2Proof/Machine/Ops.lean ====
section
/-! DEFINITION. The named operations over memory, registers, the channel and the run state. Every read and write of
the meanings goes through these. An operation that can end the step early takes the rest of the pseudocode as its last
argument. -/

namespace Sys2Proof.Machine

/-- What a step or a meaning answers. -/
abbrev Result := Host.Outcome State Fault Refusal

/-! Memory cells. -/

/-- The canonical form: cell numbers strictly rise, lie in the array of 65536 words (R40), and no entry equals what
an unlisted cell reads as. -/
abbrev Memory.wf (m : Memory) : Prop :=
  m.Pairwise (fun c d => c.1 < d.1) ∧ ∀ c ∈ m, c.1 < 131072 ∧ c.2 ≠ unlistedByte

/-- The byte in cell `k`. -/
def Memory.readCell (m : Memory) (k : Nat) : Byte :=
  match m with
  | [] => unlistedByte
  | (j, b) :: rest => if j = k then b else Memory.readCell rest k

/-- Put a cell before the first one with a greater number. -/
def Memory.insertCell (m : Memory) (k : Nat) (b : Byte) : Memory :=
  match m with
  | [] => [(k, b)]
  | (j, c) :: rest => if k < j then (k, b) :: (j, c) :: rest else (j, c) :: Memory.insertCell rest k b

/-- Write cell `k`: its old entry goes, and a new one comes unless the byte is what an unlisted cell reads as. -/
def Memory.writeCell (m : Memory) (k : Nat) (b : Byte) : Memory :=
  let others := m.filter (fun c => c.1 != k)
  if b = unlistedByte then others else Memory.insertCell others k b

/-- `memory[addr]` (R40): the one place the cells' byte order is decided, high byte first. -/
def Memory.readWord (m : Memory) (a : Word) : Word :=
  m.readCell (2 * a.toNat) ++ m.readCell (2 * a.toNat + 1)

/-- `memory[addr] <- v` (R44). -/
def Memory.writeWord (m : Memory) (a v : Word) : Memory :=
  (m.writeCell (2 * a.toNat) (v.extractLsb' 8 8)).writeCell (2 * a.toNat + 1) (v.extractLsb' 0 8)

/-! Run state. -/

/-- `raise Fatal(reason)`: the one shared operation of every stop. It saves nothing and moves nothing; only the run
state records the reason, and every effect made before it stays (R200, R201, R208, R216). No return from it exists
(R209). -/
def State.stop (s : State) (reason : FatalReason) : State := { s with run := .fatal reason }

/-- `halt` (R176). -/
def State.halt (s : State) : State := { s with run := .halted }

/-- Mark the service that goes on in the next step, or none. -/
def State.setHold (s : State) (h : Option Hold) : State := { s with hold := h }

/-! Registers. -/

/-- `x[r]` as stored (R20). -/
def State.reg (s : State) (r : Reg) : Word := s.regs[r]

/-- R23: every register is readable under `Zero`; under `Unwritten` only one that an instruction has written. -/
def State.readable (s : State) (r : Reg) : Bool :=
  decide (s.params.gprResetMode = .zero) || s.written[r]

/-- `x[r] <- v` (R20). -/
def State.setReg (s : State) (r : Reg) (v : Word) : State :=
  { s with regs := s.regs.set r v, written := s.written.set r true }

/-- Read `x[r]` and go on; a read of an unwritten register ends the run (R23, R207). -/
def State.withReg (s : State) (r : Reg) (next : Word → State) : State :=
  if s.readable r then next (s.reg r) else s.stop (.unwrittenRegister r)

/-- `pc <- target` (R10). -/
def State.setPc (s : State) (target : Word) : State := { s with pc := target }

/-! The input channel (R60, R61, R238). Each poll and each look of a blocking read takes one answer of the host. -/

/-- The host's next answer, constrained by nothing (R47, D27). -/
def State.nextAnswer (s : State) : HostAnswer :=
  match s.input with
  | [] => Config.hostAnswer s.drawn
  | answer :: _ => answer

/-- The state with that answer taken. -/
def State.takeAnswer (s : State) : State :=
  match s.input with
  | [] => { s with drawn := s.drawn + 1 }
  | _ :: rest => { s with input := rest }

/-- `ChanRead()` of the service `h`, and go on with the byte. With no byte yet the core holds, its own state otherwise
unchanged (R61, R242); end of input or an error ends the run (R60, R204). -/
def State.withInput (s : State) (h : Hold) (next : Byte → State → State) : State :=
  match s.nextAnswer with
  | .byte b => next b s.takeAnswer
  | .nothing => s.takeAnswer.setHold (some h)
  | .failed => s.takeAnswer.stop .ioFailure

/-! The output channel (R60, R238). -/

/-- Whether the host accepts all of the next `n` writes and flushes (R238). -/
def State.acceptsAll (s : State) (n : Nat) : Bool :=
  match s.accepts with
  | none => true
  | some k => decide (n ≤ k)

/-- How many more writes and flushes the host accepts once it has accepted `n`. -/
def State.acceptsAfter (s : State) (n : Nat) : Option Nat := s.accepts.map (· - n)

/-- The record and the host's patience after events are sent. -/
def State.setOutput (s : State) (sent : List OutEvent) (left : Option Nat) : State :=
  { s with output := s.output ++ sent, accepts := left }

/-- `ChanWrite` and `ChanFlush`, in order, and go on. At the first the host does not accept the run ends; what was
sent before it stays sent (R60, R204, R216). -/
def State.withOutput (s : State) (events : List OutEvent) (next : State → State) : State :=
  if s.acceptsAll events.length then next (s.setOutput events (s.acceptsAfter events.length))
  else (s.setOutput (events.take (s.accepts.getD 0)) (some 0)).stop .ioFailure

/-! Memory (R44 to R48). -/

/-- `MemWrite(addr, 1, v)`: a plain store at every address (R44). -/
def State.memWrite (s : State) (a v : Word) : State := { s with mem := s.mem.writeWord a v }

/-- The keyboard poll of R46. It never holds the core (R47). -/
def State.poll (s : State) : State :=
  match s.nextAnswer with
  | .byte b => (s.takeAnswer.memWrite s.params.kbsrAddr 0x8000).memWrite s.params.kbdrAddr (b.setWidth 16)
  | .nothing => s.takeAnswer.memWrite s.params.kbsrAddr 0x0000
  | .failed => s.takeAnswer.memWrite s.params.kbsrAddr 0x0000

/-- The state a read of `addr` leaves: only a read of KBSR has a side effect (R45, R46). -/
def State.afterRead (s : State) (a : Word) : State := if a = s.params.kbsrAddr then s.poll else s

/-- `MemRead(addr, 1)`: the poll comes before the value (R46, D8). -/
def State.memRead (s : State) (a : Word) : Word × State :=
  ((s.afterRead a).mem.readWord a, s.afterRead a)

/-! Fetch (R25, R26, R236). -/

/-- What the fetch of a step gives. -/
inductive Fetched where
  /-- The word at PC, with PC incremented. -/
  | word (ir : Word) (s : State)
  /-- PC was 0xFFFF: the run ends before decode. -/
  | ceiling (s : State)
deriving DecidableEq, Repr

/-- R236: read the word at PC, stop at the ceiling, else increment PC. -/
def State.fetch (s : State) : Fetched :=
  if s.pc = 0xFFFF then .ceiling ((s.memRead s.pc).2.stop .pcCeiling)
  else .word (s.memRead s.pc).1 ((s.memRead s.pc).2.setPc (s.pc + 1))

end Sys2Proof.Machine
end

