-- ==== Sys2Proof/Machine/Flags.lean ====
section
/-! DEFINITION. The one flag computation, SetCC (R29), and the register write that sets COND (R30). -/

namespace Sys2Proof.Machine

/-- R29: the flag of a value. -/
def condOf (v : Word) : Cond :=
  if v = 0x0000 then .z else if v.getLsbD 15 then .n else .p

/-- `SetCC(v)` (R29). -/
def State.setCC (s : State) (v : Word) : State := { s with cond := condOf v }

/-- `x[r] <- v` then `SetCC(v)`: how the instructions of R30 write their destination. -/
def State.setDest (s : State) (r : Reg) (v : Word) : State := (s.setReg r v).setCC v

/-- R120: whether the n, z, p bits of a BR overlap COND. -/
def branchTaken (n z p : Bool) (c : Cond) : Bool :=
  match c with
  | .n => n
  | .z => z
  | .p => p

end Sys2Proof.Machine
end

