-- ==== Sys2Proof/Machine/Operands.lean ====
section
/-! DEFINITION. The operand forms: sign-extended immediates (R12, R74) and the two effective addresses (R140, R141). -/

namespace Sys2Proof.Machine

/-- `sext_n(v)` by the formula of R12: where bit n-1 is set, OR with `0xFFFF << n`. -/
def sext {n : Nat} (v : BitVec n) : Word :=
  if v.getLsbD (n - 1) then v.setWidth 16 ||| (0xFFFF#16 <<< n) else v.setWidth 16

/-- R140 and the targets of BR and JSR: `pc + sext(offset)`, `pc` the incremented PC, modulo 2^16. -/
def State.pcRelative (s : State) {n : Nat} (offset : BitVec n) : Word := s.pc + sext offset

/-- R141: `x[BaseR] + sext_6(offset6)`, the base's value given. -/
def baseOffset (base : Word) (offset6 : BitVec 6) : Word := base + sext offset6

end Sys2Proof.Machine
end

