-- ==== Sys2Proof/Machine/Control.lean ====
section
/-! DEFINITION. The control transfers BR, JMP (RET), JSR and JSRR (R120 to R126). None writes COND or reaches memory. -/

namespace Sys2Proof.Machine

/-- `x[7] <- pc`: the link write of JSR, JSRR and TRAP, which leaves COND alone (R22, R30). -/
def State.link (s : State) : State := s.setReg 7 s.pc

/-- BR (R121). -/
def execBr (n z p : Bool) (pcOffset9 : BitVec 9) (s : State) : Result :=
  .next (if branchTaken n z p s.cond then s.setPc (s.pcRelative pcOffset9) else s)

/-- JMP (R122). -/
def execJmp (baseR : Reg) (s : State) : Result :=
  .next (s.withReg baseR fun target => s.setPc target)

/-- JSR (R123): the target is computed from the PC that is saved. -/
def execJsr (pcOffset11 : BitVec 11) (s : State) : Result :=
  .next (s.link.setPc (s.pcRelative pcOffset11))

/-- JSRR (R124), in the order the parameter `JSRR_LINK_ORDER` gives. -/
def execJsrr (baseR : Reg) (s : State) : Result :=
  .next <|
    match s.params.jsrrLinkOrder with
    | .linkFirst => s.link.withReg baseR fun target => s.link.setPc target
    | .targetFirst => s.withReg baseR fun target => s.link.setPc target

end Sys2Proof.Machine
end

