-- ==== Sys2Proof/Machine/Memory.lean ====
section
/-! DEFINITION. The loads and stores LD, LDI, LDR, LEA, ST, STI and STR (R140 to R149). -/

namespace Sys2Proof.Machine

/-- The common end of the loads: `v <- MemRead(ea, 1)`, `x[DR] <- v`, `SetCC(v)` (R142 to R144). -/
def State.loadFrom (s : State) (ea : Word) (dr : Reg) : State :=
  (s.memRead ea).2.setDest dr (s.memRead ea).1

/-- The common end of the stores: `MemWrite(ea, 1, x[SR])` (R146 to R148). -/
def State.storeTo (s : State) (ea : Word) (sr : Reg) : State :=
  s.withReg sr fun v => s.memWrite ea v

/-- LD (R142). -/
def execLd (dr : Reg) (pcOffset9 : BitVec 9) (s : State) : Result :=
  .next (s.loadFrom (s.pcRelative pcOffset9) dr)

/-- LDI (R143): the pointer read comes first, and each read may poll. -/
def execLdi (dr : Reg) (pcOffset9 : BitVec 9) (s : State) : Result :=
  let pointer := s.memRead (s.pcRelative pcOffset9)
  .next (pointer.2.loadFrom pointer.1 dr)

/-- LDR (R144). -/
def execLdr (dr baseR : Reg) (offset6 : BitVec 6) (s : State) : Result :=
  .next (s.withReg baseR fun base => s.loadFrom (baseOffset base offset6) dr)

/-- LEA (R145): no memory access. -/
def execLea (dr : Reg) (pcOffset9 : BitVec 9) (s : State) : Result :=
  .next (s.setDest dr (s.pcRelative pcOffset9))

/-- ST (R146). -/
def execSt (sr : Reg) (pcOffset9 : BitVec 9) (s : State) : Result :=
  .next (s.storeTo (s.pcRelative pcOffset9) sr)

/-- STI (R147): the pointer read may poll and comes before SR is read. -/
def execSti (sr : Reg) (pcOffset9 : BitVec 9) (s : State) : Result :=
  let pointer := s.memRead (s.pcRelative pcOffset9)
  .next (pointer.2.storeTo pointer.1 sr)

/-- STR (R148). -/
def execStr (sr baseR : Reg) (offset6 : BitVec 6) (s : State) : Result :=
  .next (s.withReg baseR fun base => s.storeTo (baseOffset base offset6) sr)

end Sys2Proof.Machine
end

