-- ==== Sys2Proof/Machine/Operate.lean ====
section
/-! DEFINITION. The operate instructions ADD, AND and NOT (R100 to R105). -/

namespace Sys2Proof.Machine

/-- ADD, register form (R100). -/
def execAddReg (dr sr1 sr2 : Reg) (s : State) : Result :=
  .next (s.withReg sr1 fun a => s.withReg sr2 fun b => s.setDest dr (a + b))

/-- ADD, immediate form (R101). -/
def execAddImm (dr sr1 : Reg) (imm5 : BitVec 5) (s : State) : Result :=
  .next (s.withReg sr1 fun a => s.setDest dr (a + sext imm5))

/-- AND, register form (R102). -/
def execAndReg (dr sr1 sr2 : Reg) (s : State) : Result :=
  .next (s.withReg sr1 fun a => s.withReg sr2 fun b => s.setDest dr (a &&& b))

/-- AND, immediate form (R103). -/
def execAndImm (dr sr1 : Reg) (imm5 : BitVec 5) (s : State) : Result :=
  .next (s.withReg sr1 fun a => s.setDest dr (a &&& sext imm5))

/-- NOT (R104). -/
def execNot (dr sr : Reg) (s : State) : Result :=
  .next (s.withReg sr fun a => s.setDest dr (~~~a))

end Sys2Proof.Machine
end

