-- ==== Sys2Proof/Machine/Trap.lean ====
section
/-! DEFINITION. TRAP, its six services and the unknown codes (R170 to R177, R180), a held service going on (R242), and
the reserved opcodes RTI and RES (R178, R179). A service runs inside the TRAP's own step, but for a wait and a string of
more than a pass over memory, which hold and go on in the next step of the model. -/

namespace Sys2Proof.Machine

/-- `v[7:0]` of a word. -/
def lowByte (v : Word) : Byte := v.extractLsb' 0 8

/-- `v[15:8]` of a word. -/
def highByte (v : Word) : Byte := v.extractLsb' 8 8

/-- The end of GETC, once its byte is read (R171): zero-extended, SetCC, no echo. -/
def State.finishGetc (b : Byte) (s : State) : State := s.setDest 0 (b.setWidth 16)

/-- The end of IN, once its byte is read (R174): echo, flush, then R0 and SetCC. -/
def State.finishIn (b : Byte) (s : State) : State :=
  s.withOutput [.byte b, .flush] fun s' => s'.setDest 0 (b.setWidth 16)

/-- What a service sends for a nonzero word: PUTS its low byte (R173, D13), PUTSP its low byte and then its high byte
unless that is zero (R175). -/
def wordEvents (service : StringService) (w : Word) : List OutEvent :=
  match service with
  | .puts => [.byte (lowByte w)]
  | .putsp => if highByte w = 0x00 then [.byte (lowByte w)] else [.byte (lowByte w), .byte (highByte w)]

/-- The loop of PUTS and PUTSP over at most `words` words from `a` on (R173, R175), after which it holds. -/
def State.scan (service : StringService) (words : Nat) (a : Word) (s : State) : State :=
  match words with
  | 0 => s.setHold (some (.string service a))
  | words + 1 =>
    if (s.memRead a).1 = 0x0000 then (s.memRead a).2.withOutput [.flush] id
    else (s.memRead a).2.withOutput (wordEvents service (s.memRead a).1) (State.scan service words (a + 1))

/-- The words one step of the model reads at most for a string: one pass over memory. Only a string in which a poll of
KBSR found a byte can be longer (notes/assumptions/14.md). -/
def passWords : Nat := 65536

/-- The service of PUTS and PUTSP after the link write. -/
def State.putString (s : State) (service : StringService) : State :=
  s.withReg 0 fun a => State.scan service passWords a s

/-- A service goes on where the step before left it (R61, R173, R175, R242). -/
def State.resume (s : State) (h : Hold) : State :=
  match h with
  | .getc => (s.setHold none).withInput .getc State.finishGetc
  | .inService => (s.setHold none).withInput .inService State.finishIn
  | .string service next => State.scan service passWords next (s.setHold none)

/-- GETC, trap code 0x20 (R171). -/
def execTrapGetc (s : State) : Result := .next (s.link.withInput .getc State.finishGetc)

/-- OUT, trap code 0x21 (R172): no flush (D15). -/
def execTrapOut (s : State) : Result :=
  .next (s.link.withReg 0 fun v => s.link.withOutput [.byte (lowByte v)] id)

/-- PUTS, trap code 0x22 (R173). -/
def execTrapPuts (s : State) : Result := .next (s.link.putString .puts)

/-- IN, trap code 0x23 (R174): the prompt, a flush, then the blocking read. -/
def execTrapIn (s : State) : Result :=
  .next (s.link.withOutput (s.params.inPrompt.map .byte ++ [.flush]) fun s' => s'.withInput .inService State.finishIn)

/-- PUTSP, trap code 0x24 (R175). -/
def execTrapPutsp (s : State) : Result := .next (s.link.putString .putsp)

/-- HALT, trap code 0x25 (R176). -/
def execTrapHalt (s : State) : Result := .next (s.link.withOutput [.flush] State.halt)

/-- TRAP with any other code (R177): the link write, then the stop. -/
def execTrapUnknown (trapcode : BitVec 8) (s : State) : Result := .next (s.link.stop (.unknownTrap trapcode))

/-- RTI (R178): illegal; only the run state changes. -/
def execRti (s : State) : Result := .next (s.stop (.illegalOpcode .rti))

/-- RES (R179): as RTI, under its own tag. -/
def execRes (s : State) : Result := .next (s.stop (.illegalOpcode .res))

end Sys2Proof.Machine
end

