-- ==== Sys2Proof/Machine/Step.lean ====
section
/-! DEFINITION. One step of the execution loop (R236), and the host's way to place an instruction. -/

namespace Sys2Proof.Machine

/-- R236, R34, R242: no step exists in `Halted` and `Fatal`; a held service goes on; otherwise fetch, increment,
decode, execute. -/
def step (s : State) : Host.Outcome State Fault Refusal :=
  match s.run with
  | .halted => .fault .halted
  | .fatal reason => .fault (.fatal reason)
  | .running =>
    match s.hold with
    | some h => .next (s.resume h)
    | none =>
      match s.fetch with
      | .ceiling s' => .next s'
      | .word ir s' => exec (decode ir) s'

/-- The word `w` placed where a running core that holds for no service fetches next. It stands for the load of R232;
a PC of 0xFFFF or `KBSR_ADDR` never fetches a placed word (R26, R46). Every instruction is one word, so `nbits` is no
more than 16. -/
def State.withFetchWord (s : State) (nbits w : Nat) : State :=
  s.memWrite s.pc (BitVec.ofNat 16 (w % 2 ^ min nbits 16))

end Sys2Proof.Machine
end

