-- ==== Sys2Proof/Machine/Loader.lean ====
section
/-! DEFINITION. The loader at its boundary (R231 to R235): the object image as a function from bytes to launch memory. -/

namespace Sys2Proof.Machine

/-- The malformed images of R233 (D21). -/
inductive LoadError where
  /-- Fewer than 2 bytes: no origin. -/
  | noOrigin
  /-- An odd number of bytes: a truncated word. -/
  | truncatedWord
  /-- The words would go past 0xFFFF. -/
  | pastCeiling
deriving DecidableEq, Repr

/-- Bytes as 16-bit big-endian words (R232); none for an odd number of bytes. -/
def imageWords (bytes : List Byte) : Option (List Word) :=
  match bytes with
  | [] => some []
  | [_] => none
  | hi :: lo :: rest => (imageWords rest).map ((hi ++ lo) :: ·)

/-- `memory[a + k] <- word k` for each word in turn (R232). -/
def Memory.writeWords (m : Memory) (a : Word) (words : List Word) : Memory :=
  match words with
  | [] => m
  | w :: rest => Memory.writeWords (m.writeWord a w) (a + 1) rest

/-- The launch memory of an image, from memory all zero (R231, R232), or the loader's report (R233). DESIGN CHOICE:
of an image malformed in two ways R233 does not say which report it gets; here one byte is no origin, and an odd number
of bytes is a truncated word even where the words go past 0xFFFF (notes/assumptions/23.md). -/
def loadImage (bytes : List Byte) : Except LoadError Memory :=
  match imageWords bytes with
  | none => if bytes.length < 2 then .error .noOrigin else .error .truncatedWord
  | some [] => .error .noOrigin
  | some (origin :: words) =>
    if origin.toNat + words.length ≤ 65536 then .ok (Memory.writeWords [] origin words)
    else .error .pastCeiling

/-- The state in which the execution loop starts: reset, with an image's memory (R231). PC does not take the origin
(R27, R235). -/
def State.launch (p : Params) (m : Memory) : State := { State.resetFor p with mem := m }

end Sys2Proof.Machine
end

