-- ==== Sys2Proof/Safety.lean ====
section
/-! DEFINITION. What claims speak of: a safe run, the invariant of the machine, the observation of a run (R237), and
the frame predicates of the statements. -/

namespace Sys2Proof.Machine

/-- A state no fatal stop has ended (R201). -/
def State.Safe (s : State) : Prop := ∀ reason, s.run ≠ .fatal reason

/-- The invariant: memory is canonical, the keyboard registers are two words (R8), only a running core holds (R34,
R61), and a register nothing has written still holds its reset value (R23; under Unwritten that value is the model's,
notes/assumptions/4.md and notes/assumptions/24.md). -/
structure State.Inv (s : State) : Prop where
  mem_wf : s.mem.wf
  params_wf : s.params.wf
  hold_running : s.hold ≠ none → s.run = .running
  unwritten_reset : ∀ r : Reg, s.written[r] = false → s.reg r = resetGpr

/-- What a run that ends in `Halted` shows (R237). -/
structure Observation where
  regs : Vector Word 8
  pc : Word
  cond : Cond
  mem : Memory
  output : List OutEvent
deriving DecidableEq, Repr

/-- R237: only a halted run has an observation. DESIGN CHOICE: under `GPR_RESET_MODE = Unwritten` it shows 0x0000 for a
register nothing has written, which R23 gives no value and on which R237 is silent; unsafe
(notes/assumptions/24.md). -/
def State.observation (s : State) : Option Observation :=
  if s.run = .halted then some ⟨s.regs, s.pc, s.cond, s.mem, s.output⟩ else none

/-- Every register but those named holds what it held, and is readable as it was. -/
def KeepsRegs (but : List Reg) (s t : State) : Prop :=
  ∀ q, q ∉ but → t.reg q = s.reg q ∧ t.readable q = s.readable q

/-- Every word of memory, so every byte, reads as it did. -/
def KeepsMem (s t : State) : Prop := ∀ a : Word, t.mem.readWord a = s.mem.readWord a

/-- The host's answers to come are as they were: none is taken. -/
def KeepsInput (s t : State) : Prop := t.input = s.input ∧ t.drawn = s.drawn

/-- The channel is as it was: no answer taken, nothing sent. -/
def KeepsChannel (s t : State) : Prop := KeepsInput s t ∧ t.output = s.output ∧ t.accepts = s.accepts

/-- The parameters, the run state and the hold are as they were. -/
def KeepsRun (s t : State) : Prop := t.params = s.params ∧ t.run = s.run ∧ t.hold = s.hold

/-- Everything but the named registers, PC and COND is as it was: the frame of an instruction that reaches neither
memory nor the channel. -/
def KeepsAllButRegs (but : List Reg) (s t : State) : Prop :=
  KeepsRegs but s t ∧ KeepsMem s t ∧ KeepsChannel s t ∧ KeepsRun s t

/-- The state after `n` successive `MemRead`s from `a` on, as the loop of PUTS and PUTSP makes them (R48, R173). -/
def State.afterReads (s : State) (a : Word) (n : Nat) : State :=
  match n with
  | 0 => s
  | n + 1 => State.afterReads (s.memRead a).2 (a + 1) n

/-- The word that the read after `k` such reads gives. -/
def State.wordRead (s : State) (a : Word) (k : Nat) : Word :=
  ((s.afterReads a k).memRead (a + BitVec.ofNat 16 k)).1

/-- The state with events put before everything the core has sent. -/
def State.withEarlierOutput (s : State) (earlier : List OutEvent) : State := { s with output := earlier ++ s.output }

end Sys2Proof.Machine

namespace Sys2Proof

/-- The registers an instruction can write (R22): its DR, R7 for the links, R0 for GETC and IN. -/
def Instr.destRegs : Instr → List Reg
  | .br _ _ _ _ => []
  | .addReg dr _ _ => [dr]
  | .addImm dr _ _ => [dr]
  | .ld dr _ => [dr]
  | .st _ _ => []
  | .jsr _ => [7]
  | .jsrr _ => [7]
  | .andReg dr _ _ => [dr]
  | .andImm dr _ _ => [dr]
  | .ldr dr _ _ => [dr]
  | .str _ _ _ => []
  | .rti => []
  | .not dr _ => [dr]
  | .ldi dr _ => [dr]
  | .sti _ _ => []
  | .jmp _ => []
  | .res => []
  | .lea dr _ => [dr]
  | .trapGetc => [0, 7]
  | .trapOut => [7]
  | .trapPuts => [7]
  | .trapIn => [0, 7]
  | .trapPutsp => [7]
  | .trapHalt => [7]
  | .trapUnknown _ => [7]

/-- The writers of COND (R30). -/
def Instr.writesCond : Instr → Bool
  | .br _ _ _ _ => false
  | .addReg _ _ _ => true
  | .addImm _ _ _ => true
  | .ld _ _ => true
  | .st _ _ => false
  | .jsr _ => false
  | .jsrr _ => false
  | .andReg _ _ _ => true
  | .andImm _ _ _ => true
  | .ldr _ _ _ => true
  | .str _ _ _ => false
  | .rti => false
  | .not _ _ => true
  | .ldi _ _ => true
  | .sti _ _ => false
  | .jmp _ => false
  | .res => false
  | .lea _ _ => true
  | .trapGetc => true
  | .trapOut => false
  | .trapPuts => false
  | .trapIn => true
  | .trapPutsp => false
  | .trapHalt => false
  | .trapUnknown _ => false

/-- The instructions that write PC beyond the step's increment (R25). -/
def Instr.writesPc : Instr → Bool
  | .br _ _ _ _ => true
  | .addReg _ _ _ => false
  | .addImm _ _ _ => false
  | .ld _ _ => false
  | .st _ _ => false
  | .jsr _ => true
  | .jsrr _ => true
  | .andReg _ _ _ => false
  | .andImm _ _ _ => false
  | .ldr _ _ _ => false
  | .str _ _ _ => false
  | .rti => false
  | .not _ _ => false
  | .ldi _ _ => false
  | .sti _ _ => false
  | .jmp _ => true
  | .res => false
  | .lea _ _ => false
  | .trapGetc => false
  | .trapOut => false
  | .trapPuts => false
  | .trapIn => false
  | .trapPutsp => false
  | .trapHalt => false
  | .trapUnknown _ => false

/-- The stores ST, STI and STR, the only instructions with a `MemWrite` (R146 to R148, R180). -/
def Instr.isStore : Instr → Bool
  | .br _ _ _ _ => false
  | .addReg _ _ _ => false
  | .addImm _ _ _ => false
  | .ld _ _ => false
  | .st _ _ => true
  | .jsr _ => false
  | .jsrr _ => false
  | .andReg _ _ _ => false
  | .andImm _ _ _ => false
  | .ldr _ _ _ => false
  | .str _ _ _ => true
  | .rti => false
  | .not _ _ => false
  | .ldi _ _ => false
  | .sti _ _ => true
  | .jmp _ => false
  | .res => false
  | .lea _ _ => false
  | .trapGetc => false
  | .trapOut => false
  | .trapPuts => false
  | .trapIn => false
  | .trapPutsp => false
  | .trapHalt => false
  | .trapUnknown _ => false

end Sys2Proof
end

