-- ==== Sys2Proof/Certificates/Slice0/Obligations.lean ====
section
/-! DEFINITION. The statements for the provers, from the numbered rules of spec/. In each, `s` is the state an
instruction's meaning starts from, PC already incremented (R13), and `t` the next state. -/

open Sys2Proof Sys2Proof.Machine

/-! Reset. -/

/-- R230 with R27 and R32: what reset leaves, for every value of the parameters, and R27's default for PC. -/
def Obligations.ResetLeavesTheStatedValues : Prop :=
  (∀ p : Params,
    (State.resetFor p).params = p ∧ (State.resetFor p).pc = p.pcStart ∧ (State.resetFor p).cond = .z ∧
    (State.resetFor p).run = .running ∧ (∀ r : Reg, (State.resetFor p).reg r = 0x0000) ∧
    (∀ r : Reg, (State.resetFor p).readable r = decide (p.gprResetMode = .zero)) ∧
    (∀ a : Word, (State.resetFor p).mem.readWord a = 0x0000)) ∧
  State.reset.pc = 0x3000

/-- The invariant of Safety.lean holds at reset (R8, R23, R34, R43). -/
def Obligations.InvariantHoldsAtReset : Prop := State.reset.Inv

/-! Encoding. -/

/-- Words written out from the formats R76 to R86, one or more per family, decode to the instruction they stand for; NOT,
HALT and RES also with ignored bits set (R87, D3; notes/assumptions/16.md). -/
def Obligations.SpecWordsDecode : Prop :=
  decode 0b0001_000_001_1_00011 = .addImm 0 1 3 ∧ decode 0b0001_010_011_0_00_100 = .addReg 2 3 4 ∧
  decode 0b0101_010_001_0_00_100 = .andReg 2 1 4 ∧ decode 0b1001_100_011_111111 = .not 4 3 ∧
  decode 0b0000_0_1_0_111111101 = .br false true false 0x1FD ∧ decode 0b1100_000_111_000000 = .jmp 7 ∧
  decode 0b0100_1_00000000001 = .jsr 1 ∧ decode 0b0100_0_00_011_000000 = .jsrr 3 ∧
  decode 0b0010_000_000000110 = .ld 0 6 ∧ decode 0b1010_110_000000101 = .ldi 6 5 ∧
  decode 0b0110_100_010_000001 = .ldr 4 2 1 ∧ decode 0b1110_010_000000111 = .lea 2 7 ∧
  decode 0b0011_001_000000010 = .st 1 2 ∧ decode 0b1011_101_000000100 = .sti 5 4 ∧
  decode 0b0111_101_010_000010 = .str 5 2 2 ∧ decode 0b1111_0000_00100101 = .trapHalt ∧
  decode 0b1111_1111_00100101 = .trapHalt ∧ decode 0b1111_0000_00100110 = .trapUnknown 0x26 ∧
  decode 0b1000_000000000000 = .rti ∧ decode 0b1101_000100100011 = .res

/-- R70 to R86: no bit of a well-formed instruction is lost in its word. -/
def Obligations.DecodeOfEncode : Prop := ∀ i : Instr, i.WellFormed = true → decode (encode i) = i

/-- R87, R88: every word decodes to a well-formed instruction, whose word is the given one with its ignored bits zero. -/
def Obligations.EncodeOfDecode : Prop :=
  ∀ w : Word, (decode w).WellFormed = true ∧ encode (decode w) = w &&& ~~~(decode w).ignoredBits

/-- R87: "a word with any value in them is the same instruction as the word with zeros there". -/
def Obligations.IgnoredBitsDoNotDecode : Prop :=
  ∀ v w : Word, v &&& ~~~(decode w).ignoredBits = w &&& ~~~(decode w).ignoredBits → decode v = decode w

/-- R88: every word matches exactly one row of the opcode table, the row of the instruction it decodes to. -/
def Obligations.EveryWordMatchesItsOneRow : Prop := ∀ w : Word, matchingRows w = [(decode w).row]

/-- R12, R74: the four widths of sign-extended fields keep their signed value; the spec's boundary case. -/
def Obligations.SignExtensionKeepsTheSignedValue : Prop :=
  (∀ v : BitVec 5, (sext v).toInt = v.toInt) ∧ (∀ v : BitVec 6, (sext v).toInt = v.toInt) ∧
  (∀ v : BitVec 9, (sext v).toInt = v.toInt) ∧ (∀ v : BitVec 11, (sext v).toInt = v.toInt) ∧
  sext (0b10000 : BitVec 5) = 0xFFF0

/-! Flags. -/

/-- R29: SetCC gives Z for zero, N where the high bit is set, P otherwise. -/
def Obligations.SetCCFollowsTheValue : Prop :=
  ∀ (s : State) (v : Word),
    (v = 0x0000 → (s.setCC v).cond = .z) ∧ (v ≠ 0x0000 → v.msb = true → (s.setCC v).cond = .n) ∧
    (v ≠ 0x0000 → v.msb = false → (s.setCC v).cond = .p)

/-- R30: only the instructions listed there change COND, whatever else an instruction does. -/
def Obligations.OnlyFlagWritersChangeCond : Prop :=
  ∀ (i : Instr) (s t : State), exec i s = .next t → i.writesCond = false → t.cond = s.cond

/-- R30, R149: a flag writer that neither stops nor holds leaves in COND the flag of the value in its destination. -/
def Obligations.FlagWritersSetCondFromTheDestination : Prop :=
  ∀ (i : Instr) (s t : State) (r : Reg) (others : List Reg), exec i s = .next t → i.writesCond = true →
    i.destRegs = r :: others → t.run = .running → t.hold = none → t.cond = condOf (t.reg r)

/-! The step. -/

/-- R236, R13: a running core that holds for nothing executes the word its fetch reads, on the state with PC
incremented; where PC is not KBSR's address that word is the one in memory and nothing else changed. -/
def Obligations.StepRunsTheDecodedInstruction : Prop :=
  ∀ s : State, s.run = .running → s.hold = none → s.pc ≠ 0xFFFF →
    step s = exec (decode (s.memRead s.pc).1) ((s.memRead s.pc).2.setPc (s.pc + 1)) ∧
    (∀ i, s.pc ≠ s.params.kbsrAddr → decode (s.mem.readWord s.pc) = i → step s = exec i (s.setPc (s.pc + 1)))

/-- R26, R205: the step that fetches at 0xFFFF ends in `Fatal(PcCeiling)`; PC stays, and nothing else changes. -/
def Obligations.StepAtTheCeilingStops : Prop :=
  ∀ s : State, s.run = .running → s.hold = none → s.pc = 0xFFFF →
    ∃ t, step s = .next t ∧ t.run = .fatal .pcCeiling ∧ t.pc = 0xFFFF ∧ t.cond = s.cond ∧ KeepsRegs [] s t ∧
      t.output = s.output ∧ (s.params.kbsrAddr ≠ 0xFFFF → KeepsMem s t ∧ KeepsChannel s t)

/-- R34: in `Halted` and `Fatal(_)` no step exists. -/
def Obligations.NoStepAfterTheEnd : Prop :=
  ∀ s : State, (s.run = .halted → step s = .fault .halted) ∧
    (∀ reason, s.run = .fatal reason → step s = .fault (.fatal reason)) ∧
    (∀ t, step s = .next t → s.run = .running)

/-- R59, R240: a word that ST puts at the next instruction's address is what the next step executes. -/
def Obligations.StoreIsSeenByTheNextFetch : Prop :=
  ∀ (sr : Reg) (s : State), s.readable sr = true → s.run = .running → s.hold = none → s.pc ≠ 0xFFFF →
    s.pc ≠ s.params.kbsrAddr →
    ∃ t, exec (.st sr 0) s = .next t ∧ step t = exec (decode (s.reg sr)) (t.setPc (s.pc + 1))

/-! The operate instructions. -/

/-- R100. -/
def Obligations.AddRegisterForm : Prop :=
  ∀ (dr sr1 sr2 : Reg) (s : State), s.readable sr1 = true → s.readable sr2 = true →
    ∃ t, exec (.addReg dr sr1 sr2) s = .next t ∧ t.reg dr = s.reg sr1 + s.reg sr2 ∧
      t.cond = condOf (s.reg sr1 + s.reg sr2) ∧ t.pc = s.pc ∧ KeepsAllButRegs [dr] s t

/-- R101. -/
def Obligations.AddImmediateForm : Prop :=
  ∀ (dr sr1 : Reg) (imm5 : BitVec 5) (s : State), s.readable sr1 = true →
    ∃ t, exec (.addImm dr sr1 imm5) s = .next t ∧ t.reg dr = s.reg sr1 + imm5.signExtend 16 ∧
      t.cond = condOf (s.reg sr1 + imm5.signExtend 16) ∧ t.pc = s.pc ∧ KeepsAllButRegs [dr] s t

/-- R102. -/
def Obligations.AndRegisterForm : Prop :=
  ∀ (dr sr1 sr2 : Reg) (s : State), s.readable sr1 = true → s.readable sr2 = true →
    ∃ t, exec (.andReg dr sr1 sr2) s = .next t ∧ t.reg dr = s.reg sr1 &&& s.reg sr2 ∧
      t.cond = condOf (s.reg sr1 &&& s.reg sr2) ∧ t.pc = s.pc ∧ KeepsAllButRegs [dr] s t

/-- R103. -/
def Obligations.AndImmediateForm : Prop :=
  ∀ (dr sr1 : Reg) (imm5 : BitVec 5) (s : State), s.readable sr1 = true →
    ∃ t, exec (.andImm dr sr1 imm5) s = .next t ∧ t.reg dr = s.reg sr1 &&& imm5.signExtend 16 ∧
      t.cond = condOf (s.reg sr1 &&& imm5.signExtend 16) ∧ t.pc = s.pc ∧ KeepsAllButRegs [dr] s t

/-- R104. -/
def Obligations.NotComplements : Prop :=
  ∀ (dr sr : Reg) (s : State), s.readable sr = true →
    ∃ t, exec (.not dr sr) s = .next t ∧ t.reg dr = ~~~(s.reg sr) ∧ t.cond = condOf (~~~(s.reg sr)) ∧
      t.pc = s.pc ∧ KeepsAllButRegs [dr] s t

/-- R23, R207: under `GPR_RESET_MODE = Unwritten` the first read of a register nothing has written ends the run in
`Fatal(UnwrittenRegister)`, wherever an instruction reads one. What the instruction did before that read stays (R208):
the poll of STI's pointer read, and the link write of JSRR under LinkFirst and of TRAP. -/
def Obligations.UnwrittenRegisterStops : Prop :=
  ∀ (r p q : Reg) (imm5 : BitVec 5) (off6 : BitVec 6) (off9 : BitVec 9) (s : State), s.readable r = false →
    exec (.addReg q r p) s = .next (s.stop (.unwrittenRegister r)) ∧
    exec (.addImm q r imm5) s = .next (s.stop (.unwrittenRegister r)) ∧
    exec (.andReg q r p) s = .next (s.stop (.unwrittenRegister r)) ∧
    exec (.andImm q r imm5) s = .next (s.stop (.unwrittenRegister r)) ∧
    exec (.not q r) s = .next (s.stop (.unwrittenRegister r)) ∧
    exec (.jmp r) s = .next (s.stop (.unwrittenRegister r)) ∧
    exec (.ldr q r off6) s = .next (s.stop (.unwrittenRegister r)) ∧
    exec (.str q r off6) s = .next (s.stop (.unwrittenRegister r)) ∧
    exec (.st r off9) s = .next (s.stop (.unwrittenRegister r)) ∧
    (s.readable p = true →
      exec (.addReg q p r) s = .next (s.stop (.unwrittenRegister r)) ∧
      exec (.andReg q p r) s = .next (s.stop (.unwrittenRegister r)) ∧
      exec (.str r p off6) s = .next (s.stop (.unwrittenRegister r))) ∧
    exec (.sti r off9) s = .next ((s.memRead (s.pc + off9.signExtend 16)).2.stop (.unwrittenRegister r)) ∧
    (s.params.jsrrLinkOrder = .targetFirst → exec (.jsrr r) s = .next (s.stop (.unwrittenRegister r))) ∧
    (s.params.jsrrLinkOrder = .linkFirst → r ≠ 7 →
      exec (.jsrr r) s = .next ((s.setReg 7 s.pc).stop (.unwrittenRegister r))) ∧
    (r = 0 →
      exec .trapOut s = .next ((s.setReg 7 s.pc).stop (.unwrittenRegister r)) ∧
      exec .trapPuts s = .next ((s.setReg 7 s.pc).stop (.unwrittenRegister r)) ∧
      exec .trapPutsp s = .next ((s.setReg 7 s.pc).stop (.unwrittenRegister r)))

/-! Control transfer. -/

/-- R120, R121: taken where a set n, z, p bit names the current flag. -/
def Obligations.BranchOnOverlap : Prop :=
  ∀ (n z p : Bool) (off : BitVec 9) (s : State),
    ∃ t, exec (.br n z p off) s = .next t ∧
      (((n = true ∧ s.cond = .n) ∨ (z = true ∧ s.cond = .z) ∨ (p = true ∧ s.cond = .p)) →
        t.pc = s.pc + off.signExtend 16) ∧
      (¬((n = true ∧ s.cond = .n) ∨ (z = true ∧ s.cond = .z) ∨ (p = true ∧ s.cond = .p)) → t.pc = s.pc) ∧
      t.cond = s.cond ∧ KeepsAllButRegs [] s t

/-- R122. -/
def Obligations.JumpToBase : Prop :=
  ∀ (base : Reg) (s : State), s.readable base = true →
    ∃ t, exec (.jmp base) s = .next t ∧ t.pc = s.reg base ∧ t.cond = s.cond ∧ KeepsAllButRegs [] s t

/-- R123. -/
def Obligations.JsrLinksAndJumps : Prop :=
  ∀ (off : BitVec 11) (s : State),
    ∃ t, exec (.jsr off) s = .next t ∧ t.reg 7 = s.pc ∧ t.pc = s.pc + off.signExtend 16 ∧ t.cond = s.cond ∧
      KeepsAllButRegs [7] s t

/-- R124: both link orders, which differ for BaseR = R7 only. -/
def Obligations.JsrrLinksAndJumps : Prop :=
  ∀ (base : Reg) (s : State),
    (s.params.jsrrLinkOrder = .linkFirst ∧ base = 7) ∨ s.readable base = true →
    ∃ t, exec (.jsrr base) s = .next t ∧ t.reg 7 = s.pc ∧
      (s.params.jsrrLinkOrder = .linkFirst ∧ base = 7 → t.pc = s.pc) ∧
      (¬(s.params.jsrrLinkOrder = .linkFirst ∧ base = 7) → t.pc = s.reg base) ∧
      t.cond = s.cond ∧ KeepsAllButRegs [7] s t

/-! Memory and the keyboard registers. -/

/-- R44, R57: a store at any address, the keyboard registers among them, is read back by the array and changes no
other word, register or channel. -/
def Obligations.StoreChangesOneWord : Prop :=
  ∀ (s : State) (a v c : Word), (s.memWrite a v).mem.readWord c = (if c = a then v else s.mem.readWord c) ∧
    KeepsRegs [] s (s.memWrite a v) ∧ (s.memWrite a v).pc = s.pc ∧ (s.memWrite a v).cond = s.cond ∧
    KeepsChannel s (s.memWrite a v) ∧ KeepsRun s (s.memWrite a v)

/-- R45: a read of any address but KBSR's returns the word and changes no state. -/
def Obligations.PlainReadChangesNothing : Prop :=
  ∀ (s : State) (a : Word), a ≠ s.params.kbsrAddr → s.memRead a = (s.mem.readWord a, s)

/-- R46, R47: a read of KBSR polls before it answers: 0x8000 with the byte in KBDR where the host answers one, else
0x0000 with KBDR as it was; the poll takes one answer, and nothing else of the core changes. -/
def Obligations.KbsrReadPolls : Prop :=
  ∀ (s t : State) (v : Word), s.params.wf → s.memRead s.params.kbsrAddr = (v, t) →
    (∀ b, s.nextAnswer = .byte b →
      v = 0x8000 ∧ t.mem.readWord s.params.kbsrAddr = 0x8000 ∧ t.mem.readWord s.params.kbdrAddr = b.setWidth 16) ∧
    ((∀ b, s.nextAnswer ≠ .byte b) →
      v = 0x0000 ∧ t.mem.readWord s.params.kbsrAddr = 0x0000 ∧
        t.mem.readWord s.params.kbdrAddr = s.mem.readWord s.params.kbdrAddr) ∧
    (∀ c, c ≠ s.params.kbsrAddr → c ≠ s.params.kbdrAddr → t.mem.readWord c = s.mem.readWord c) ∧
    KeepsInput s.takeAnswer t ∧ KeepsRegs [] s t ∧ t.pc = s.pc ∧ t.cond = s.cond ∧ KeepsRun s t ∧
    t.output = s.output ∧ t.accepts = s.accepts

/-- R142: the read is `MemRead`, so it polls where the address is KBSR's; elsewhere memory and channel are untouched. -/
def Obligations.LoadPcRelative : Prop :=
  ∀ (dr : Reg) (off : BitVec 9) (s : State),
    ∃ t, exec (.ld dr off) s = .next t ∧
      t.reg dr = (s.memRead (s.pc + off.signExtend 16)).1 ∧
      t.cond = condOf (s.memRead (s.pc + off.signExtend 16)).1 ∧ t.pc = s.pc ∧
      KeepsAllButRegs [dr] (s.memRead (s.pc + off.signExtend 16)).2 t ∧ KeepsRegs [dr] s t ∧
      (s.pc + off.signExtend 16 ≠ s.params.kbsrAddr →
        t.reg dr = s.mem.readWord (s.pc + off.signExtend 16) ∧ KeepsMem s t ∧ KeepsChannel s t)

/-- R143: two reads in order, the pointer's and the data's, each able to poll. -/
def Obligations.LoadIndirect : Prop :=
  ∀ (dr : Reg) (off : BitVec 9) (s u : State) (pointer : Word),
    s.memRead (s.pc + off.signExtend 16) = (pointer, u) →
    ∃ t, exec (.ldi dr off) s = .next t ∧ t.reg dr = (u.memRead pointer).1 ∧
      t.cond = condOf (u.memRead pointer).1 ∧ t.pc = s.pc ∧
      KeepsAllButRegs [dr] (u.memRead pointer).2 t ∧ KeepsRegs [dr] s t ∧
      (s.pc + off.signExtend 16 ≠ s.params.kbsrAddr →
        s.mem.readWord (s.pc + off.signExtend 16) ≠ s.params.kbsrAddr →
        t.reg dr = s.mem.readWord (s.mem.readWord (s.pc + off.signExtend 16)) ∧ KeepsMem s t ∧ KeepsChannel s t)

/-- R144. -/
def Obligations.LoadBaseOffset : Prop :=
  ∀ (dr base : Reg) (off : BitVec 6) (s : State), s.readable base = true →
    ∃ t, exec (.ldr dr base off) s = .next t ∧
      t.reg dr = (s.memRead (s.reg base + off.signExtend 16)).1 ∧
      t.cond = condOf (s.memRead (s.reg base + off.signExtend 16)).1 ∧ t.pc = s.pc ∧
      KeepsAllButRegs [dr] (s.memRead (s.reg base + off.signExtend 16)).2 t ∧ KeepsRegs [dr] s t ∧
      (s.reg base + off.signExtend 16 ≠ s.params.kbsrAddr →
        t.reg dr = s.mem.readWord (s.reg base + off.signExtend 16) ∧ KeepsMem s t ∧ KeepsChannel s t)

/-- R145. -/
def Obligations.LoadEffectiveAddress : Prop :=
  ∀ (dr : Reg) (off : BitVec 9) (s : State),
    ∃ t, exec (.lea dr off) s = .next t ∧ t.reg dr = s.pc + off.signExtend 16 ∧
      t.cond = condOf (s.pc + off.signExtend 16) ∧ t.pc = s.pc ∧ KeepsAllButRegs [dr] s t

/-- R146. -/
def Obligations.StorePcRelative : Prop :=
  ∀ (sr : Reg) (off : BitVec 9) (s : State), s.readable sr = true →
    ∃ t, exec (.st sr off) s = .next t ∧
      (∀ a, t.mem.readWord a = if a = s.pc + off.signExtend 16 then s.reg sr else s.mem.readWord a) ∧
      t.cond = s.cond ∧ t.pc = s.pc ∧ KeepsRegs [] s t ∧ KeepsChannel s t ∧ KeepsRun s t

/-- R147: the pointer read is a `MemRead`; the store goes where the pointer says, on the state that read leaves. -/
def Obligations.StoreIndirect : Prop :=
  ∀ (sr : Reg) (off : BitVec 9) (s u : State) (pointer : Word), s.readable sr = true →
    s.memRead (s.pc + off.signExtend 16) = (pointer, u) →
    ∃ t, exec (.sti sr off) s = .next t ∧
      (∀ a, t.mem.readWord a = if a = pointer then s.reg sr else u.mem.readWord a) ∧
      t.cond = s.cond ∧ t.pc = s.pc ∧ KeepsRegs [] s t ∧ KeepsChannel u t ∧ KeepsRun s t ∧
      (s.pc + off.signExtend 16 ≠ s.params.kbsrAddr → pointer = s.mem.readWord (s.pc + off.signExtend 16) ∧ u = s)

/-- R148. -/
def Obligations.StoreBaseOffset : Prop :=
  ∀ (sr base : Reg) (off : BitVec 6) (s : State), s.readable sr = true → s.readable base = true →
    ∃ t, exec (.str sr base off) s = .next t ∧
      (∀ a, t.mem.readWord a = if a = s.reg base + off.signExtend 16 then s.reg sr else s.mem.readWord a) ∧
      t.cond = s.cond ∧ t.pc = s.pc ∧ KeepsRegs [] s t ∧ KeepsChannel s t ∧ KeepsRun s t

/-! TRAP and its services. -/

/-- R171 with R170: GETC where the host answers a byte. -/
def Obligations.GetcReadsAByte : Prop :=
  ∀ (s : State) (b : Byte), s.nextAnswer = .byte b →
    ∃ t, exec .trapGetc s = .next t ∧ t.reg 0 = b.setWidth 16 ∧ t.reg 7 = s.pc ∧
      t.cond = condOf (b.setWidth 16) ∧ t.pc = s.pc ∧ KeepsRegs [0, 7] s t ∧ KeepsMem s t ∧
      KeepsInput s.takeAnswer t ∧ t.output = s.output ∧ t.accepts = s.accepts ∧ KeepsRun s t

/-- R172 with R170. -/
def Obligations.OutWritesTheLowByte : Prop :=
  ∀ s : State, s.readable 0 = true → s.acceptsAll 1 = true →
    ∃ t, exec .trapOut s = .next t ∧ t.output = s.output ++ [.byte ((s.reg 0).setWidth 8)] ∧
      t.accepts = s.acceptsAfter 1 ∧ t.reg 7 = s.pc ∧ t.cond = s.cond ∧ t.pc = s.pc ∧ KeepsRegs [7] s t ∧
      KeepsMem s t ∧ KeepsInput s t ∧ KeepsRun s t

/-- R173 with R170, R48: PUTS over a string of `n` words that successive reads from R0 on give, none zero, before a zero
one. A string that passes by KBSR is read from memory as it stands. One that runs through KBSR reads 0x8000 there, takes
one answer, a byte, and goes on; one that ends at KBSR takes one answer that is no byte. -/
def Obligations.PutsWritesTheString : Prop :=
  ∀ (s : State) (n : Nat), s.readable 0 = true → n < 65536 →
    (∀ k < n, s.wordRead (s.reg 0) k ≠ 0x0000) → s.wordRead (s.reg 0) n = 0x0000 → s.acceptsAll (n + 1) = true →
    ∃ t, exec .trapPuts s = .next t ∧
      t.output = s.output ++
        (List.range n).map (fun k => .byte ((s.wordRead (s.reg 0) k).setWidth 8)) ++ [.flush] ∧
      t.accepts = s.acceptsAfter (n + 1) ∧ t.reg 7 = s.pc ∧ t.cond = s.cond ∧ t.pc = s.pc ∧ KeepsRegs [7] s t ∧
      t.mem = (s.afterReads (s.reg 0) (n + 1)).mem ∧ KeepsInput (s.afterReads (s.reg 0) (n + 1)) t ∧ KeepsRun s t ∧
      ((∀ k ≤ n, s.reg 0 + BitVec.ofNat 16 k ≠ s.params.kbsrAddr) →
        (∀ k ≤ n, s.wordRead (s.reg 0) k = s.mem.readWord (s.reg 0 + BitVec.ofNat 16 k)) ∧ KeepsMem s t ∧
          KeepsInput s t) ∧
      (∀ j < n, s.params.wf → s.reg 0 + BitVec.ofNat 16 j = s.params.kbsrAddr →
        s.wordRead (s.reg 0) j = 0x8000 ∧ KeepsInput s.takeAnswer t ∧
          ∃ b, s.nextAnswer = .byte b ∧ t.mem.readWord s.params.kbsrAddr = 0x8000 ∧
            t.mem.readWord s.params.kbdrAddr = b.setWidth 16) ∧
      (s.params.wf → s.reg 0 + BitVec.ofNat 16 n = s.params.kbsrAddr →
        KeepsInput s.takeAnswer t ∧ ∀ b, s.nextAnswer ≠ .byte b)

/-- R173, R175, R204, R216: where the host refuses a write or the flush of PUTS or PUTSP, what it accepted stays written
and the run ends in `Fatal(IoFailure)`. PUTS sends one event for each word, so where the host accepts `k` events and the
first `k` words read are not zero, it refuses the byte of word `k`, or the flush if that word is zero. For PUTSP the
`n` words that go out whole send `sent`, and the refused event is one of `next`, those of word `n`. Which bytes of a
word go out is the spec's decision D13 (notes/assumptions/21.md). -/
def Obligations.StringFailureKeepsWhatWasWritten : Prop :=
  (∀ (s : State) (k : Nat), s.readable 0 = true → k < 65536 → s.accepts = some k →
    (∀ j < k, s.wordRead (s.reg 0) j ≠ 0x0000) →
    ∃ t, exec .trapPuts s = .next t ∧ t.run = .fatal .ioFailure ∧
      t.output = s.output ++ (List.range k).map (fun j => .byte ((s.wordRead (s.reg 0) j).setWidth 8)) ∧
      t.reg 7 = s.pc ∧ t.cond = s.cond ∧ t.pc = s.pc ∧ KeepsRegs [7] s t ∧
      t.mem = (s.afterReads (s.reg 0) (k + 1)).mem) ∧
  (∀ (s : State) (n k : Nat) (sent next : List OutEvent), s.readable 0 = true → n < 65536 → s.accepts = some k →
    (∀ j < n, s.wordRead (s.reg 0) j ≠ 0x0000) →
    sent = (List.range n).flatMap (fun j =>
      let w := s.wordRead (s.reg 0) j
      if w >>> 8 = 0x0000 then [.byte (w.setWidth 8)] else [.byte (w.setWidth 8), .byte ((w >>> 8).setWidth 8)]) →
    next = (let w := s.wordRead (s.reg 0) n
      if w = 0x0000 then [.flush] else if w >>> 8 = 0x0000 then [.byte (w.setWidth 8)]
      else [.byte (w.setWidth 8), .byte ((w >>> 8).setWidth 8)]) →
    sent.length ≤ k → k < sent.length + next.length →
    ∃ t, exec .trapPutsp s = .next t ∧ t.run = .fatal .ioFailure ∧
      t.output = s.output ++ sent ++ next.take (k - sent.length) ∧
      t.reg 7 = s.pc ∧ t.cond = s.cond ∧ t.pc = s.pc ∧ KeepsRegs [7] s t ∧
      t.mem = (s.afterReads (s.reg 0) (n + 1)).mem)

/-- R174 with R170: IN where the host answers a byte: prompt, flush, echo, flush, then R0 and COND. The
order is the spec's decision D14, the zero-extension D20 (notes/assumptions/7.md, notes/assumptions/20.md). -/
def Obligations.InPromptsReadsAndEchoes : Prop :=
  ∀ (s : State) (b : Byte), s.nextAnswer = .byte b → s.acceptsAll (s.params.inPrompt.length + 3) = true →
    ∃ t, exec .trapIn s = .next t ∧
      t.output = s.output ++ s.params.inPrompt.map .byte ++ [.flush, .byte b, .flush] ∧
      t.accepts = s.acceptsAfter (s.params.inPrompt.length + 3) ∧ t.reg 0 = b.setWidth 16 ∧ t.reg 7 = s.pc ∧
      t.cond = condOf (b.setWidth 16) ∧ t.pc = s.pc ∧ KeepsRegs [0, 7] s t ∧ KeepsMem s t ∧
      KeepsInput s.takeAnswer t ∧ KeepsRun s t

/-- R175 with R170, R48: PUTSP writes each word's low byte, then its high byte unless that is zero; the words are read
as PUTS reads them. -/
def Obligations.PutspWritesTheString : Prop :=
  ∀ (s : State) (n : Nat) (sent : List OutEvent), s.readable 0 = true → n < 65536 →
    (∀ k < n, s.wordRead (s.reg 0) k ≠ 0x0000) → s.wordRead (s.reg 0) n = 0x0000 →
    sent = (List.range n).flatMap (fun k =>
      let w := s.wordRead (s.reg 0) k
      if w >>> 8 = 0x0000 then [.byte (w.setWidth 8)] else [.byte (w.setWidth 8), .byte ((w >>> 8).setWidth 8)]) →
    s.acceptsAll (sent.length + 1) = true →
    ∃ t, exec .trapPutsp s = .next t ∧ t.output = s.output ++ sent ++ [.flush] ∧
      t.accepts = s.acceptsAfter (sent.length + 1) ∧ t.reg 7 = s.pc ∧ t.cond = s.cond ∧ t.pc = s.pc ∧
      KeepsRegs [7] s t ∧
      t.mem = (s.afterReads (s.reg 0) (n + 1)).mem ∧ KeepsInput (s.afterReads (s.reg 0) (n + 1)) t ∧ KeepsRun s t ∧
      ((∀ k ≤ n, s.reg 0 + BitVec.ofNat 16 k ≠ s.params.kbsrAddr) →
        (∀ k ≤ n, s.wordRead (s.reg 0) k = s.mem.readWord (s.reg 0 + BitVec.ofNat 16 k)) ∧ KeepsMem s t ∧
          KeepsInput s t) ∧
      (∀ j < n, s.params.wf → s.reg 0 + BitVec.ofNat 16 j = s.params.kbsrAddr →
        s.wordRead (s.reg 0) j = 0x8000 ∧ KeepsInput s.takeAnswer t ∧
          ∃ b, s.nextAnswer = .byte b ∧ t.mem.readWord s.params.kbsrAddr = 0x8000 ∧
            t.mem.readWord s.params.kbdrAddr = b.setWidth 16) ∧
      (s.params.wf → s.reg 0 + BitVec.ofNat 16 n = s.params.kbsrAddr →
        KeepsInput s.takeAnswer t ∧ ∀ b, s.nextAnswer ≠ .byte b)

/-- R176 with R170, R237: HALT flushes and ends the run in `Halted`, whose observation is what it left.
That it shows a value for a register nothing has written is the model's choice (notes/assumptions/24.md). -/
def Obligations.HaltFlushesAndHalts : Prop :=
  ∀ s : State, s.acceptsAll 1 = true →
    ∃ t, exec .trapHalt s = .next t ∧ t.run = .halted ∧ t.output = s.output ++ [.flush] ∧ t.reg 7 = s.pc ∧
      t.pc = s.pc ∧ t.cond = s.cond ∧ KeepsRegs [7] s t ∧ KeepsMem s t ∧ KeepsInput s t ∧
      t.accepts = s.acceptsAfter 1 ∧ t.params = s.params ∧ t.hold = s.hold ∧
      t.observation = some ⟨t.regs, s.pc, s.cond, s.mem, s.output ++ [.flush]⟩

/-- R177 with R170: an unknown trap code is fatal, after the R7 write. -/
def Obligations.UnknownTrapIsFatal : Prop :=
  ∀ (code : BitVec 8) (s : State),
    ∃ t, exec (.trapUnknown code) s = .next t ∧ t.run = .fatal (.unknownTrap code) ∧ t.reg 7 = s.pc ∧
      t.pc = s.pc ∧ t.cond = s.cond ∧ KeepsRegs [7] s t ∧ KeepsMem s t ∧ KeepsChannel s t ∧
      t.params = s.params ∧ t.hold = s.hold ∧ t.observation = none

/-- R178, R179: RTI and RES are fatal under their own tags and change nothing else. -/
def Obligations.ReservedOpcodesAreFatal : Prop :=
  ∀ s : State,
    (∃ t, exec .rti s = .next t ∧ t.run = .fatal (.illegalOpcode .rti) ∧ t.pc = s.pc ∧ t.cond = s.cond ∧
      KeepsRegs [] s t ∧ KeepsMem s t ∧ KeepsChannel s t ∧ t.params = s.params ∧ t.hold = s.hold) ∧
    (∃ t, exec .res s = .next t ∧ t.run = .fatal (.illegalOpcode .res) ∧ t.pc = s.pc ∧ t.cond = s.cond ∧
      KeepsRegs [] s t ∧ KeepsMem s t ∧ KeepsChannel s t ∧ t.params = s.params ∧ t.hold = s.hold)

/-- R204, R171, R174: end of input or a channel error on the blocking read of GETC or IN ends the run in
`Fatal(IoFailure)`; R7 holds the link and R0 and COND are not written. IN's flush before the read is the spec's decision
D14 (notes/assumptions/7.md), what stays at the stop D17 (R180, R208, R216; notes/assumptions/13.md). -/
def Obligations.EndOfInputIsFatal : Prop :=
  ∀ s : State, s.nextAnswer = .failed →
    (∃ t, exec .trapGetc s = .next t ∧ t.run = .fatal .ioFailure ∧ t.reg 7 = s.pc ∧ t.cond = s.cond ∧
      t.pc = s.pc ∧ KeepsRegs [7] s t ∧ KeepsMem s t ∧ t.output = s.output) ∧
    (s.acceptsAll (s.params.inPrompt.length + 1) = true →
      ∃ t, exec .trapIn s = .next t ∧ t.run = .fatal .ioFailure ∧ t.reg 7 = s.pc ∧ t.cond = s.cond ∧
        t.pc = s.pc ∧ KeepsRegs [7] s t ∧ KeepsMem s t ∧
        t.output = s.output ++ s.params.inPrompt.map .byte ++ [.flush])

/-- R204, R60: a write or flush the host does not accept ends the run in `Fatal(IoFailure)`: the byte of OUT, the flush
of HALT, and each event of IN, its prompt, the first flush, the echo and the last flush. What the host accepted before
stays sent. R7 holds the link, which R170 and the spec's decision D10 (notes/assumptions/18.md) put before the service;
R0 and COND are not written. What stays at the stop is D17 (R180, R208, R216; notes/assumptions/13.md). -/
def Obligations.OutputFailureIsFatal : Prop :=
  ∀ (s : State) (k : Nat), s.accepts = some k →
    (k = 0 → s.readable 0 = true → ∃ t, exec .trapOut s = .next t ∧ t.run = .fatal .ioFailure ∧
      t.output = s.output ∧ t.reg 7 = s.pc ∧ t.cond = s.cond ∧ t.pc = s.pc ∧ KeepsRegs [7] s t ∧ KeepsMem s t) ∧
    (k = 0 → ∃ t, exec .trapHalt s = .next t ∧ t.run = .fatal .ioFailure ∧
      t.output = s.output ∧ t.reg 7 = s.pc ∧ t.cond = s.cond ∧ t.pc = s.pc ∧ KeepsRegs [7] s t ∧ KeepsMem s t) ∧
    (k < s.params.inPrompt.length + 1 → ∃ t, exec .trapIn s = .next t ∧ t.run = .fatal .ioFailure ∧
      t.output = s.output ++ (s.params.inPrompt.map .byte ++ [.flush] : List OutEvent).take k ∧
      t.reg 7 = s.pc ∧ t.cond = s.cond ∧ t.pc = s.pc ∧ KeepsRegs [7] s t ∧ KeepsMem s t) ∧
    (∀ b, s.nextAnswer = .byte b → s.params.inPrompt.length + 1 ≤ k → k < s.params.inPrompt.length + 3 →
      ∃ t, exec .trapIn s = .next t ∧ t.run = .fatal .ioFailure ∧
        t.output = s.output ++ (s.params.inPrompt.map .byte ++ [.flush, .byte b, .flush] : List OutEvent).take k ∧
        t.reg 7 = s.pc ∧ t.cond = s.cond ∧ t.pc = s.pc ∧ KeepsRegs [7] s t ∧ KeepsMem s t)

/-- R61, R171, R174, R242: where the host has no byte yet, GETC answers the next state that holds, with the link written and nothing
else changed, and IN the same with its prompt and flush sent; the step of a core that so holds changes nothing but that
the host's answer is taken. The hold is the model's own (notes/assumptions/12.md). -/
def Obligations.ServicesWaitForInput : Prop :=
  ∀ s : State, s.nextAnswer = .nothing →
    (∃ t, exec .trapGetc s = .next t ∧ t.hold = some .getc ∧ t.reg 7 = s.pc ∧ t.cond = s.cond ∧ t.pc = s.pc ∧
      KeepsRegs [7] s t ∧ KeepsMem s t ∧ KeepsInput s.takeAnswer t ∧ t.output = s.output ∧ t.accepts = s.accepts ∧
      t.params = s.params ∧ t.run = s.run) ∧
    (s.acceptsAll (s.params.inPrompt.length + 1) = true →
      ∃ t, exec .trapIn s = .next t ∧ t.hold = some .inService ∧ t.reg 7 = s.pc ∧ t.cond = s.cond ∧ t.pc = s.pc ∧
        KeepsRegs [7] s t ∧ KeepsMem s t ∧ KeepsInput s.takeAnswer t ∧
        t.output = s.output ++ s.params.inPrompt.map .byte ++ [.flush] ∧
        t.accepts = s.acceptsAfter (s.params.inPrompt.length + 1) ∧ t.params = s.params ∧ t.run = s.run) ∧
    (s.run = .running → s.hold = some .getc ∨ s.hold = some .inService → step s = .next s.takeAnswer)

/-- R180, R242: where GETC or IN holds, the next step does what that one instruction does from the state before, the
answer that was no byte taken. So a service that held ends as it would have in one step had the byte been there. The
hold is the model's own (notes/assumptions/12.md). -/
def Obligations.HeldServiceEndsAsOneStep : Prop :=
  ∀ s t : State, s.run = .running → s.hold = none → t.hold ≠ none →
    (exec .trapGetc s = .next t → step t = exec .trapGetc s.takeAnswer) ∧
    (exec .trapIn s = .next t → step t = exec .trapIn s.takeAnswer)

/-! The whole machine. -/

/-- R22, R23: no instruction writes a register but its destination, the link R7 and, for GETC and IN, R0. An
instruction that neither stops nor holds has written these: they may be read, under `GPR_RESET_MODE = Unwritten` too.
So has every TRAP its link, whatever its service does after (R170, D10; notes/assumptions/18.md). -/
def Obligations.DestinationsAndNoOthersAreWritten : Prop :=
  ∀ (i : Instr) (s t : State), exec i s = .next t → KeepsRegs i.destRegs s t ∧
    (t.run = .running → t.hold = none → ∀ r ∈ i.destRegs, t.readable r = true) ∧
    (i ∈ [.trapGetc, .trapOut, .trapPuts, .trapIn, .trapPutsp, .trapHalt] ∨ (∃ code, i = .trapUnknown code) →
      t.reg 7 = s.pc ∧ t.readable 7 = true)

/-- R25: only BR, JMP, JSR and JSRR move PC beyond the step's increment. -/
def Obligations.OnlyTransfersMovePc : Prop :=
  ∀ (i : Instr) (s t : State), exec i s = .next t → i.writesPc = false → t.pc = s.pc

/-- R44, R46, R180: without a store, no word changes but the two keyboard registers, and those only by a poll. -/
def Obligations.OnlyStoresWriteMemory : Prop :=
  ∀ (i : Instr) (s t : State), exec i s = .next t → i.isStore = false →
    ∀ a, a ≠ s.params.kbsrAddr → a ≠ s.params.kbdrAddr → t.mem.readWord a = s.mem.readWord a

/-- R201 with R237: a step that ends the run has the cause the table of R201 gives for that end. `w` is the word the
step fetches where it holds for no service. `Fatal(IoFailure)` is the host's failure to answer a blocking read, or an
output event that a host of finite patience refused, and so accepts no more. -/
def Obligations.EveryEndHasItsCause : Prop :=
  ∀ (s t : State) (w : Word), step s = .next t → (s.memRead s.pc).1 = w →
    (t.run = .halted → s.hold = none ∧ decode w = .trapHalt) ∧
    (t.run = .fatal (.illegalOpcode .rti) → s.hold = none ∧ decode w = .rti) ∧
    (t.run = .fatal (.illegalOpcode .res) → s.hold = none ∧ decode w = .res) ∧
    (∀ code, t.run = .fatal (.unknownTrap code) → s.hold = none ∧ decode w = .trapUnknown code) ∧
    (t.run = .fatal .ioFailure →
      (s.nextAnswer = .failed ∧
        (s.hold = some .getc ∨ s.hold = some .inService ∨ (s.hold = none ∧ decode w ∈ [.trapGetc, .trapIn]))) ∨
      ((∃ k, s.accepts = some k) ∧ t.accepts = some 0 ∧
        (s.hold = some .inService ∨ (∃ service a, s.hold = some (.string service a)) ∨
          (s.hold = none ∧ decode w ∈ [.trapOut, .trapPuts, .trapIn, .trapPutsp, .trapHalt])))) ∧
    (t.run = .fatal .pcCeiling → s.hold = none ∧ s.pc = 0xFFFF) ∧
    (∀ r, t.run = .fatal (.unwrittenRegister r) → s.hold = none ∧ s.readable r = false)

/-- R42, R200: every instruction answers a next state, in every state: none is refused and none faults. -/
def Obligations.EveryInstructionAnswers : Prop := ∀ (i : Instr) (s : State), ∃ t, exec i s = .next t

/-- R173, R175, R46: PUTS and PUTSP, and the step that goes on with one that held, end the service where the next poll
finds no byte, since a pass over memory reads KBSR, or where the host accepts fewer events than a pass has words. -/
def Obligations.StringsEndWhereAPollFindsNothing : Prop :=
  ∀ s : State, (∀ b, s.nextAnswer ≠ .byte b) ∨ (∃ k, s.accepts = some k ∧ k < 65536) →
    (s.hold = none →
      (∃ t, exec .trapPuts s = .next t ∧ t.hold = none) ∧ (∃ t, exec .trapPutsp s = .next t ∧ t.hold = none)) ∧
    (∀ service a, s.run = .running → s.hold = some (.string service a) → ∃ t, step s = .next t ∧ t.hold = none)

/-- R173, R175, R237: PUTS and PUTSP hold only where the loop of the spec goes on: a whole pass over memory read no zero
word, its poll of KBSR found a byte, and the next word is the one at R0 again. The step after goes on with that same
loop: so many words more from there are so many words more of it. The hold is the model's own
(notes/assumptions/14.md). -/
def Obligations.HeldStringGoesOnWithItsLoop : Prop :=
  ∀ (s t : State) (h : Hold) (service : StringService), s.run = .running → s.hold = none → t.hold = some h →
    exec (match service with | .puts => .trapPuts | .putsp => .trapPutsp) s = .next t →
    h = .string service (s.reg 0) ∧ (∀ k < 65536, s.wordRead (s.reg 0) k ≠ 0x0000) ∧ (∃ b, s.nextAnswer = .byte b) ∧
    KeepsInput s.takeAnswer t ∧
    (∀ words, State.scan service (65536 + words) (s.reg 0) s.link =
      State.scan service words (s.reg 0) (t.setHold none)) ∧
    step t = .next (State.scan service 65536 (s.reg 0) (t.setHold none))

/-- The invariant of Safety.lean is kept by every step. -/
def Obligations.InvariantIsKept : Prop := ∀ s t : State, s.Inv → step s = .next t → t.Inv

/-- R35, R36, R60: no step changes the parameters, the record only grows at its end, and the host's answers are taken in
their order, the free ones after those the state names. -/
def Obligations.ChannelOrderIsKept : Prop :=
  ∀ s t : State, step s = .next t → t.params = s.params ∧ s.output <+: t.output ∧ t.input <:+ s.input ∧
    s.drawn ≤ t.drawn ∧ (t.drawn ≠ s.drawn → t.input = [])

/-- R35: what the core has sent never influences what it does. -/
def Obligations.OutputIsNeverReadBack : Prop :=
  ∀ (s : State) (earlier : List OutEvent),
    step (s.withEarlierOutput earlier) = match step s with
      | .next t => .next (t.withEarlierOutput earlier)
      | .fault f => .fault f
      | .refused r => .refused r

/-! The loader's boundary. -/

/-- R232, R43: an image is its origin and its words as big-endian byte pairs; the words lie from the origin on, and every
other word is zero. That the memory is canonical is said of the model's own form (notes/assumptions/1.md). -/
def Obligations.LoadedImageLiesAtItsOrigin : Prop :=
  ∀ (origin : Word) (words : List Word), origin.toNat + words.length ≤ 65536 →
    ∃ m, loadImage ((origin :: words).flatMap fun (w : Word) => [(w >>> 8).setWidth 8, w.setWidth 8]) = .ok m ∧ m.wf ∧
      (∀ k (hk : k < words.length), m.readWord (origin + BitVec.ofNat 16 k) = words[k]) ∧
      (∀ a : Word, (∀ k < words.length, a ≠ origin + BitVec.ofNat 16 k) → m.readWord a = 0x0000)

/-- R233: an image with no origin, with a truncated word, or with words past 0xFFFF is reported as such. Which report an
image malformed in two ways gets is the model's choice (notes/assumptions/23.md). -/
def Obligations.MalformedImagesAreReported : Prop :=
  (∀ bytes : List Byte, bytes.length < 2 → loadImage bytes = .error .noOrigin) ∧
  (∀ bytes : List Byte, 2 ≤ bytes.length → bytes.length % 2 = 1 → loadImage bytes = .error .truncatedWord) ∧
  (∀ (origin : Word) (words : List Word), 65536 < origin.toNat + words.length →
    loadImage ((origin :: words).flatMap fun (w : Word) => [(w >>> 8).setWidth 8, w.setWidth 8]) = .error .pastCeiling)
end

