-- ==== Sys2Proof/Laws/Memory.lean ====
section
/-! SUPPORT. What the memory operations do: a read after a write, the canonical form kept, and the loader's writes. The
read-after-write laws need no canonical form. -/

namespace Sys2Proof.Machine

@[simp] theorem Memory.readCell_nil (k : Nat) : Memory.readCell [] k = unlistedByte := rfl

@[simp] theorem Memory.readWord_nil (a : Word) : Memory.readWord [] a = 0 := by simp [Memory.readWord, unlistedByte]

theorem Memory.readCell_filter_ne (m : Memory) (k j : Nat) :
    Memory.readCell (m.filter (fun c => c.1 != k)) j = if j = k then unlistedByte else m.readCell j := by
  induction m with
  | nil => simp
  | cons c rest ih =>
    obtain ⟨i, b⟩ := c
    by_cases hi : i = k
    · subst hi
      by_cases hj : j = i
      · subst hj; simpa using ih
      · simpa [hj, Memory.readCell, Ne.symm hj] using ih
    · by_cases hj : i = j
      · subst hj; simp [hi, Memory.readCell]
      · simp [hi, hj, Memory.readCell, ih]

theorem Memory.readCell_insertCell (m : Memory) (k : Nat) (b : Byte) (hk : ∀ c ∈ m, c.1 ≠ k) (j : Nat) :
    (m.insertCell k b).readCell j = if j = k then b else m.readCell j := by
  induction m with
  | nil => simp [Memory.insertCell, Memory.readCell, eq_comm]
  | cons c rest ih =>
    obtain ⟨i, d⟩ := c
    have hi : i ≠ k := hk (i, d) (by simp)
    have ih := ih (fun c hc => hk c (by simp [hc]))
    simp only [Memory.insertCell]
    split
    · simp [Memory.readCell, eq_comm]
    · simp only [Memory.readCell, ih]
      by_cases hj : i = j
      · subst hj; simp [hi]
      · simp [hj]

/-- A read of a cell after a write of a cell. -/
theorem Memory.readCell_writeCell (m : Memory) (k j : Nat) (b : Byte) :
    (m.writeCell k b).readCell j = if j = k then b else m.readCell j := by
  simp only [Memory.writeCell]
  split
  · next h => rw [Memory.readCell_filter_ne, h]
  · rw [Memory.readCell_insertCell _ _ _ (fun c hc => by simpa using (List.mem_filter.mp hc).2),
      Memory.readCell_filter_ne]
    split <;> rfl

/-- A read of a word after a write of a word (R44, R45, R57). -/
theorem Memory.readWord_writeWord (m : Memory) (a c v : Word) :
    (m.writeWord a v).readWord c = if c = a then v else m.readWord c := by
  have halves : v.extractLsb' 8 8 ++ v.extractLsb' 0 8 = v := by
    ext i hi
    simp only [BitVec.getElem_append, BitVec.getElem_extractLsb']
    split
    · next h => simp [BitVec.getLsbD_eq_getElem hi]
    · next h =>
      have : 8 + (i - 8) = i := by omega
      simp [this, BitVec.getLsbD_eq_getElem hi]
  simp only [Memory.readWord, Memory.writeWord, Memory.readCell_writeCell]
  by_cases h : c = a
  · subst h
    have h1 : ¬ 2 * c.toNat = 2 * c.toNat + 1 := by omega
    simp [halves]
  · have hne : c.toNat ≠ a.toNat := fun e => h (BitVec.eq_of_toNat_eq e)
    have h1 : ¬ 2 * c.toNat = 2 * a.toNat + 1 := by omega
    have h2 : ¬ 2 * c.toNat = 2 * a.toNat := by omega
    have h3 : ¬ 2 * c.toNat + 1 = 2 * a.toNat := by omega
    simp [h, h1, h2, h3]

@[simp] theorem Memory.readWord_writeWord_self (m : Memory) (a v : Word) : (m.writeWord a v).readWord a = v := by
  simp [Memory.readWord_writeWord]

theorem Memory.readWord_writeWord_ne (m : Memory) {a c : Word} (v : Word) (h : c ≠ a) :
    (m.writeWord a v).readWord c = m.readWord c := by
  simp [Memory.readWord_writeWord, h]

/-! The canonical form. -/

theorem Memory.wf_nil : Memory.wf [] := ⟨List.Pairwise.nil, by simp⟩

theorem Memory.mem_insertCell (m : Memory) (k : Nat) (b : Byte) (c : Host.Cell) :
    c ∈ m.insertCell k b ↔ c = (k, b) ∨ c ∈ m := by
  induction m with
  | nil => simp [Memory.insertCell]
  | cons d rest ih =>
    obtain ⟨i, e⟩ := d
    simp only [Memory.insertCell]
    split
    · simp
    · simp only [List.mem_cons, ih]
      tauto

theorem Memory.insertCell_sorted (m : Memory) (k : Nat) (b : Byte) (hs : m.Pairwise (fun c d => c.1 < d.1))
    (hk : ∀ c ∈ m, c.1 ≠ k) : (m.insertCell k b).Pairwise (fun c d => c.1 < d.1) := by
  induction m with
  | nil => simp [Memory.insertCell]
  | cons d rest ih =>
    obtain ⟨i, e⟩ := d
    rw [List.pairwise_cons] at hs
    have hi : i ≠ k := hk (i, e) (by simp)
    simp only [Memory.insertCell]
    split
    · next h =>
      refine List.pairwise_cons.mpr ⟨?_, List.pairwise_cons.mpr hs⟩
      intro c hc
      rcases List.mem_cons.mp hc with rfl | hc
      · exact h
      · exact Nat.lt_trans h (hs.1 c hc)
    · next h =>
      refine List.pairwise_cons.mpr ⟨?_, ih hs.2 (fun c hc => hk c (by simp [hc]))⟩
      intro c hc
      rcases (Memory.mem_insertCell rest k b c).mp hc with rfl | hc
      · simp only; omega
      · exact hs.1 c hc

/-- Writing a cell of the array keeps the canonical form. -/
theorem Memory.writeCell_wf {m : Memory} (hm : m.wf) {k : Nat} (hk : k < 131072) (b : Byte) : (m.writeCell k b).wf := by
  have hs : (m.filter (fun c => c.1 != k)).Pairwise (fun c d => c.1 < d.1) := hm.1.filter _
  have ho : ∀ c ∈ m.filter (fun c => c.1 != k), c.1 < 131072 ∧ c.2 ≠ unlistedByte :=
    fun c hc => hm.2 c (List.mem_filter.mp hc).1
  simp only [Memory.writeCell]
  split
  · exact ⟨hs, ho⟩
  · next hb =>
    refine ⟨Memory.insertCell_sorted _ _ _ hs (fun c hc => by simpa using (List.mem_filter.mp hc).2), ?_⟩
    intro c hc
    rcases (Memory.mem_insertCell _ _ _ _).mp hc with rfl | hc
    · exact ⟨hk, hb⟩
    · exact ho c hc

/-- Writing a word keeps the canonical form. -/
theorem Memory.writeWord_wf {m : Memory} (hm : m.wf) (a v : Word) : (m.writeWord a v).wf := by
  have ha := a.isLt
  exact Memory.writeCell_wf (Memory.writeCell_wf hm (by omega) _) (by omega) _

/-- Loading an image keeps the canonical form. -/
theorem Memory.writeWords_wf {m : Memory} (hm : m.wf) (a : Word) (words : List Word) : (m.writeWords a words).wf := by
  induction words generalizing m a with
  | nil => exact hm
  | cons w rest ih => exact ih (Memory.writeWord_wf hm a w) (a + 1)

/-- The memory of the reset state has the canonical form. -/
theorem State.reset_mem_wf : State.reset.mem.wf := Memory.wf_nil

end Sys2Proof.Machine
end

