-- ==== Sys2Proof/Laws/State.lean ====
section
/-! SUPPORT. One lemma per field per update of the state, each true by rfl, and the register file's read-after-write
laws, so that no later proof unfolds a record update. -/

namespace Sys2Proof.Machine

variable (s : State)

@[simp] theorem State.stop_params (reason : FatalReason) : (s.stop reason).params = s.params := rfl
@[simp] theorem State.stop_regs (reason : FatalReason) : (s.stop reason).regs = s.regs := rfl
@[simp] theorem State.stop_written (reason : FatalReason) : (s.stop reason).written = s.written := rfl
@[simp] theorem State.stop_pc (reason : FatalReason) : (s.stop reason).pc = s.pc := rfl
@[simp] theorem State.stop_cond (reason : FatalReason) : (s.stop reason).cond = s.cond := rfl
@[simp] theorem State.stop_mem (reason : FatalReason) : (s.stop reason).mem = s.mem := rfl
@[simp] theorem State.stop_run (reason : FatalReason) : (s.stop reason).run = .fatal reason := rfl
@[simp] theorem State.stop_hold (reason : FatalReason) : (s.stop reason).hold = s.hold := rfl
@[simp] theorem State.stop_input (reason : FatalReason) : (s.stop reason).input = s.input := rfl
@[simp] theorem State.stop_drawn (reason : FatalReason) : (s.stop reason).drawn = s.drawn := rfl
@[simp] theorem State.stop_output (reason : FatalReason) : (s.stop reason).output = s.output := rfl
@[simp] theorem State.stop_accepts (reason : FatalReason) : (s.stop reason).accepts = s.accepts := rfl
@[simp] theorem State.stop_reg (reason : FatalReason) (q : Reg) : (s.stop reason).reg q = s.reg q := rfl
@[simp] theorem State.stop_readable (reason : FatalReason) (q : Reg) : (s.stop reason).readable q = s.readable q := rfl

@[simp] theorem State.halt_params : s.halt.params = s.params := rfl
@[simp] theorem State.halt_regs : s.halt.regs = s.regs := rfl
@[simp] theorem State.halt_written : s.halt.written = s.written := rfl
@[simp] theorem State.halt_pc : s.halt.pc = s.pc := rfl
@[simp] theorem State.halt_cond : s.halt.cond = s.cond := rfl
@[simp] theorem State.halt_mem : s.halt.mem = s.mem := rfl
@[simp] theorem State.halt_run : s.halt.run = .halted := rfl
@[simp] theorem State.halt_hold : s.halt.hold = s.hold := rfl
@[simp] theorem State.halt_input : s.halt.input = s.input := rfl
@[simp] theorem State.halt_drawn : s.halt.drawn = s.drawn := rfl
@[simp] theorem State.halt_output : s.halt.output = s.output := rfl
@[simp] theorem State.halt_accepts : s.halt.accepts = s.accepts := rfl
@[simp] theorem State.halt_reg (q : Reg) : s.halt.reg q = s.reg q := rfl
@[simp] theorem State.halt_readable (q : Reg) : s.halt.readable q = s.readable q := rfl

@[simp] theorem State.setHold_params (h : Option Hold) : (s.setHold h).params = s.params := rfl
@[simp] theorem State.setHold_regs (h : Option Hold) : (s.setHold h).regs = s.regs := rfl
@[simp] theorem State.setHold_written (h : Option Hold) : (s.setHold h).written = s.written := rfl
@[simp] theorem State.setHold_pc (h : Option Hold) : (s.setHold h).pc = s.pc := rfl
@[simp] theorem State.setHold_cond (h : Option Hold) : (s.setHold h).cond = s.cond := rfl
@[simp] theorem State.setHold_mem (h : Option Hold) : (s.setHold h).mem = s.mem := rfl
@[simp] theorem State.setHold_run (h : Option Hold) : (s.setHold h).run = s.run := rfl
@[simp] theorem State.setHold_hold (h : Option Hold) : (s.setHold h).hold = h := rfl
@[simp] theorem State.setHold_input (h : Option Hold) : (s.setHold h).input = s.input := rfl
@[simp] theorem State.setHold_drawn (h : Option Hold) : (s.setHold h).drawn = s.drawn := rfl
@[simp] theorem State.setHold_output (h : Option Hold) : (s.setHold h).output = s.output := rfl
@[simp] theorem State.setHold_accepts (h : Option Hold) : (s.setHold h).accepts = s.accepts := rfl
@[simp] theorem State.setHold_reg (h : Option Hold) (q : Reg) : (s.setHold h).reg q = s.reg q := rfl
@[simp] theorem State.setHold_readable (h : Option Hold) (q : Reg) : (s.setHold h).readable q = s.readable q := rfl

@[simp] theorem State.setPc_params (target : Word) : (s.setPc target).params = s.params := rfl
@[simp] theorem State.setPc_regs (target : Word) : (s.setPc target).regs = s.regs := rfl
@[simp] theorem State.setPc_written (target : Word) : (s.setPc target).written = s.written := rfl
@[simp] theorem State.setPc_pc (target : Word) : (s.setPc target).pc = target := rfl
@[simp] theorem State.setPc_cond (target : Word) : (s.setPc target).cond = s.cond := rfl
@[simp] theorem State.setPc_mem (target : Word) : (s.setPc target).mem = s.mem := rfl
@[simp] theorem State.setPc_run (target : Word) : (s.setPc target).run = s.run := rfl
@[simp] theorem State.setPc_hold (target : Word) : (s.setPc target).hold = s.hold := rfl
@[simp] theorem State.setPc_input (target : Word) : (s.setPc target).input = s.input := rfl
@[simp] theorem State.setPc_drawn (target : Word) : (s.setPc target).drawn = s.drawn := rfl
@[simp] theorem State.setPc_output (target : Word) : (s.setPc target).output = s.output := rfl
@[simp] theorem State.setPc_accepts (target : Word) : (s.setPc target).accepts = s.accepts := rfl
@[simp] theorem State.setPc_reg (target : Word) (q : Reg) : (s.setPc target).reg q = s.reg q := rfl
@[simp] theorem State.setPc_readable (target : Word) (q : Reg) : (s.setPc target).readable q = s.readable q := rfl

@[simp] theorem State.setOutput_params (sent : List OutEvent) (left : Option Nat) : (s.setOutput sent left).params = s.params := rfl
@[simp] theorem State.setOutput_regs (sent : List OutEvent) (left : Option Nat) : (s.setOutput sent left).regs = s.regs := rfl
@[simp] theorem State.setOutput_written (sent : List OutEvent) (left : Option Nat) : (s.setOutput sent left).written = s.written := rfl
@[simp] theorem State.setOutput_pc (sent : List OutEvent) (left : Option Nat) : (s.setOutput sent left).pc = s.pc := rfl
@[simp] theorem State.setOutput_cond (sent : List OutEvent) (left : Option Nat) : (s.setOutput sent left).cond = s.cond := rfl
@[simp] theorem State.setOutput_mem (sent : List OutEvent) (left : Option Nat) : (s.setOutput sent left).mem = s.mem := rfl
@[simp] theorem State.setOutput_run (sent : List OutEvent) (left : Option Nat) : (s.setOutput sent left).run = s.run := rfl
@[simp] theorem State.setOutput_hold (sent : List OutEvent) (left : Option Nat) : (s.setOutput sent left).hold = s.hold := rfl
@[simp] theorem State.setOutput_input (sent : List OutEvent) (left : Option Nat) : (s.setOutput sent left).input = s.input := rfl
@[simp] theorem State.setOutput_drawn (sent : List OutEvent) (left : Option Nat) : (s.setOutput sent left).drawn = s.drawn := rfl
@[simp] theorem State.setOutput_output (sent : List OutEvent) (left : Option Nat) : (s.setOutput sent left).output = s.output ++ sent := rfl
@[simp] theorem State.setOutput_accepts (sent : List OutEvent) (left : Option Nat) : (s.setOutput sent left).accepts = left := rfl
@[simp] theorem State.setOutput_reg (sent : List OutEvent) (left : Option Nat) (q : Reg) : (s.setOutput sent left).reg q = s.reg q := rfl
@[simp] theorem State.setOutput_readable (sent : List OutEvent) (left : Option Nat) (q : Reg) : (s.setOutput sent left).readable q = s.readable q := rfl

@[simp] theorem State.memWrite_params (a v : Word) : (s.memWrite a v).params = s.params := rfl
@[simp] theorem State.memWrite_regs (a v : Word) : (s.memWrite a v).regs = s.regs := rfl
@[simp] theorem State.memWrite_written (a v : Word) : (s.memWrite a v).written = s.written := rfl
@[simp] theorem State.memWrite_pc (a v : Word) : (s.memWrite a v).pc = s.pc := rfl
@[simp] theorem State.memWrite_cond (a v : Word) : (s.memWrite a v).cond = s.cond := rfl
@[simp] theorem State.memWrite_mem (a v : Word) : (s.memWrite a v).mem = s.mem.writeWord a v := rfl
@[simp] theorem State.memWrite_run (a v : Word) : (s.memWrite a v).run = s.run := rfl
@[simp] theorem State.memWrite_hold (a v : Word) : (s.memWrite a v).hold = s.hold := rfl
@[simp] theorem State.memWrite_input (a v : Word) : (s.memWrite a v).input = s.input := rfl
@[simp] theorem State.memWrite_drawn (a v : Word) : (s.memWrite a v).drawn = s.drawn := rfl
@[simp] theorem State.memWrite_output (a v : Word) : (s.memWrite a v).output = s.output := rfl
@[simp] theorem State.memWrite_accepts (a v : Word) : (s.memWrite a v).accepts = s.accepts := rfl
@[simp] theorem State.memWrite_reg (a v : Word) (q : Reg) : (s.memWrite a v).reg q = s.reg q := rfl
@[simp] theorem State.memWrite_readable (a v : Word) (q : Reg) : (s.memWrite a v).readable q = s.readable q := rfl

@[simp] theorem State.setReg_params (r : Reg) (v : Word) : (s.setReg r v).params = s.params := rfl
@[simp] theorem State.setReg_regs (r : Reg) (v : Word) : (s.setReg r v).regs = s.regs.set r v := rfl
@[simp] theorem State.setReg_written (r : Reg) (v : Word) : (s.setReg r v).written = s.written.set r true := rfl
@[simp] theorem State.setReg_pc (r : Reg) (v : Word) : (s.setReg r v).pc = s.pc := rfl
@[simp] theorem State.setReg_cond (r : Reg) (v : Word) : (s.setReg r v).cond = s.cond := rfl
@[simp] theorem State.setReg_mem (r : Reg) (v : Word) : (s.setReg r v).mem = s.mem := rfl
@[simp] theorem State.setReg_run (r : Reg) (v : Word) : (s.setReg r v).run = s.run := rfl
@[simp] theorem State.setReg_hold (r : Reg) (v : Word) : (s.setReg r v).hold = s.hold := rfl
@[simp] theorem State.setReg_input (r : Reg) (v : Word) : (s.setReg r v).input = s.input := rfl
@[simp] theorem State.setReg_drawn (r : Reg) (v : Word) : (s.setReg r v).drawn = s.drawn := rfl
@[simp] theorem State.setReg_output (r : Reg) (v : Word) : (s.setReg r v).output = s.output := rfl
@[simp] theorem State.setReg_accepts (r : Reg) (v : Word) : (s.setReg r v).accepts = s.accepts := rfl

@[simp] theorem State.setCC_params (v : Word) : (s.setCC v).params = s.params := rfl
@[simp] theorem State.setCC_regs (v : Word) : (s.setCC v).regs = s.regs := rfl
@[simp] theorem State.setCC_written (v : Word) : (s.setCC v).written = s.written := rfl
@[simp] theorem State.setCC_pc (v : Word) : (s.setCC v).pc = s.pc := rfl
@[simp] theorem State.setCC_cond (v : Word) : (s.setCC v).cond = condOf v := rfl
@[simp] theorem State.setCC_mem (v : Word) : (s.setCC v).mem = s.mem := rfl
@[simp] theorem State.setCC_run (v : Word) : (s.setCC v).run = s.run := rfl
@[simp] theorem State.setCC_hold (v : Word) : (s.setCC v).hold = s.hold := rfl
@[simp] theorem State.setCC_input (v : Word) : (s.setCC v).input = s.input := rfl
@[simp] theorem State.setCC_drawn (v : Word) : (s.setCC v).drawn = s.drawn := rfl
@[simp] theorem State.setCC_output (v : Word) : (s.setCC v).output = s.output := rfl
@[simp] theorem State.setCC_accepts (v : Word) : (s.setCC v).accepts = s.accepts := rfl
@[simp] theorem State.setCC_reg (v : Word) (q : Reg) : (s.setCC v).reg q = s.reg q := rfl
@[simp] theorem State.setCC_readable (v : Word) (q : Reg) : (s.setCC v).readable q = s.readable q := rfl

@[simp] theorem State.setDest_params (r : Reg) (v : Word) : (s.setDest r v).params = s.params := rfl
@[simp] theorem State.setDest_regs (r : Reg) (v : Word) : (s.setDest r v).regs = s.regs.set r v := rfl
@[simp] theorem State.setDest_written (r : Reg) (v : Word) : (s.setDest r v).written = s.written.set r true := rfl
@[simp] theorem State.setDest_pc (r : Reg) (v : Word) : (s.setDest r v).pc = s.pc := rfl
@[simp] theorem State.setDest_cond (r : Reg) (v : Word) : (s.setDest r v).cond = condOf v := rfl
@[simp] theorem State.setDest_mem (r : Reg) (v : Word) : (s.setDest r v).mem = s.mem := rfl
@[simp] theorem State.setDest_run (r : Reg) (v : Word) : (s.setDest r v).run = s.run := rfl
@[simp] theorem State.setDest_hold (r : Reg) (v : Word) : (s.setDest r v).hold = s.hold := rfl
@[simp] theorem State.setDest_input (r : Reg) (v : Word) : (s.setDest r v).input = s.input := rfl
@[simp] theorem State.setDest_drawn (r : Reg) (v : Word) : (s.setDest r v).drawn = s.drawn := rfl
@[simp] theorem State.setDest_output (r : Reg) (v : Word) : (s.setDest r v).output = s.output := rfl
@[simp] theorem State.setDest_accepts (r : Reg) (v : Word) : (s.setDest r v).accepts = s.accepts := rfl

@[simp] theorem State.link_params : s.link.params = s.params := rfl
@[simp] theorem State.link_regs : s.link.regs = s.regs.set 7 s.pc := rfl
@[simp] theorem State.link_written : s.link.written = s.written.set 7 true := rfl
@[simp] theorem State.link_pc : s.link.pc = s.pc := rfl
@[simp] theorem State.link_cond : s.link.cond = s.cond := rfl
@[simp] theorem State.link_mem : s.link.mem = s.mem := rfl
@[simp] theorem State.link_run : s.link.run = s.run := rfl
@[simp] theorem State.link_hold : s.link.hold = s.hold := rfl
@[simp] theorem State.link_input : s.link.input = s.input := rfl
@[simp] theorem State.link_drawn : s.link.drawn = s.drawn := rfl
@[simp] theorem State.link_output : s.link.output = s.output := rfl
@[simp] theorem State.link_accepts : s.link.accepts = s.accepts := rfl

/-- Taking an answer changes nothing but the answers to come. -/
theorem State.takeAnswer_keeps : s.takeAnswer.params = s.params ∧ s.takeAnswer.regs = s.regs ∧
    s.takeAnswer.written = s.written ∧ s.takeAnswer.pc = s.pc ∧ s.takeAnswer.cond = s.cond ∧
    s.takeAnswer.mem = s.mem ∧ s.takeAnswer.run = s.run ∧ s.takeAnswer.hold = s.hold ∧
    s.takeAnswer.output = s.output ∧ s.takeAnswer.accepts = s.accepts := by
  unfold State.takeAnswer
  split <;> simp

@[simp] theorem State.takeAnswer_params : s.takeAnswer.params = s.params := s.takeAnswer_keeps.1
@[simp] theorem State.takeAnswer_regs : s.takeAnswer.regs = s.regs := s.takeAnswer_keeps.2.1
@[simp] theorem State.takeAnswer_written : s.takeAnswer.written = s.written := s.takeAnswer_keeps.2.2.1
@[simp] theorem State.takeAnswer_pc : s.takeAnswer.pc = s.pc := s.takeAnswer_keeps.2.2.2.1
@[simp] theorem State.takeAnswer_cond : s.takeAnswer.cond = s.cond := s.takeAnswer_keeps.2.2.2.2.1
@[simp] theorem State.takeAnswer_mem : s.takeAnswer.mem = s.mem := s.takeAnswer_keeps.2.2.2.2.2.1
@[simp] theorem State.takeAnswer_run : s.takeAnswer.run = s.run := s.takeAnswer_keeps.2.2.2.2.2.2.1
@[simp] theorem State.takeAnswer_hold : s.takeAnswer.hold = s.hold := s.takeAnswer_keeps.2.2.2.2.2.2.2.1
@[simp] theorem State.takeAnswer_output : s.takeAnswer.output = s.output := s.takeAnswer_keeps.2.2.2.2.2.2.2.2.1
@[simp] theorem State.takeAnswer_accepts : s.takeAnswer.accepts = s.accepts := s.takeAnswer_keeps.2.2.2.2.2.2.2.2.2
@[simp] theorem State.takeAnswer_reg (q : Reg) : s.takeAnswer.reg q = s.reg q := by simp [State.reg]
@[simp] theorem State.takeAnswer_readable (q : Reg) : s.takeAnswer.readable q = s.readable q := by
  simp [State.readable]

/-- Where the state names the next answers, the first of them is the next and is taken. -/
theorem State.nextAnswer_cons {answer : HostAnswer} {rest : List HostAnswer} (h : s.input = answer :: rest) :
    s.nextAnswer = answer := by simp [State.nextAnswer, h]

theorem State.takeAnswer_cons {answer : HostAnswer} {rest : List HostAnswer} (h : s.input = answer :: rest) :
    s.takeAnswer = { s with input := rest } := by simp [State.takeAnswer, h]

/-- Where it names none, the next answer is the free one, and the count of these rises. -/
theorem State.nextAnswer_nil (h : s.input = []) : s.nextAnswer = Config.hostAnswer s.drawn := by
  simp [State.nextAnswer, h]

theorem State.takeAnswer_nil (h : s.input = []) : s.takeAnswer = { s with drawn := s.drawn + 1 } := by
  simp [State.takeAnswer, h]

/-- What the next answer is, and what is left after it, depends on the answers to come alone. -/
theorem State.nextAnswer_congr {s t : State} (hi : t.input = s.input) (hd : t.drawn = s.drawn) :
    t.nextAnswer = s.nextAnswer := by simp [State.nextAnswer, hi, hd]

theorem State.takeAnswer_congr {s t : State} (hi : t.input = s.input) (hd : t.drawn = s.drawn) :
    t.takeAnswer.input = s.takeAnswer.input ∧ t.takeAnswer.drawn = s.takeAnswer.drawn := by
  unfold State.takeAnswer
  rw [hi]
  split <;> simp [hd]

/-- Output the host accepts depends on its patience alone. -/
theorem State.acceptsAll_congr {s t : State} (h : t.accepts = s.accepts) (n : Nat) :
    t.acceptsAll n = s.acceptsAll n := by simp [State.acceptsAll, h]

theorem State.acceptsAfter_congr {s t : State} (h : t.accepts = s.accepts) (n : Nat) :
    t.acceptsAfter n = s.acceptsAfter n := by simp [State.acceptsAfter, h]

@[simp] theorem State.resetFor_params (p : Params) : (State.resetFor p).params = p := rfl
@[simp] theorem State.resetFor_pc (p : Params) : (State.resetFor p).pc = p.pcStart := rfl
@[simp] theorem State.resetFor_cond (p : Params) : (State.resetFor p).cond = .z := rfl
@[simp] theorem State.resetFor_mem (p : Params) : (State.resetFor p).mem = [] := rfl
@[simp] theorem State.resetFor_run (p : Params) : (State.resetFor p).run = .running := rfl
@[simp] theorem State.resetFor_hold (p : Params) : (State.resetFor p).hold = none := rfl

/-- The register file: a read after a write (R20). -/
theorem State.setReg_reg (r q : Reg) (v : Word) : (s.setReg r v).reg q = if q = r then v else s.reg q := by
  simp only [State.reg, State.setReg, Fin.getElem_fin, Vector.getElem_set, eq_comm (a := q), Fin.ext_iff]

@[simp] theorem State.setReg_reg_self (r : Reg) (v : Word) : (s.setReg r v).reg r = v := by simp [State.setReg_reg]

theorem State.setReg_reg_ne {r q : Reg} (v : Word) (h : q ≠ r) : (s.setReg r v).reg q = s.reg q := by
  simp [State.setReg_reg, h]

/-- A written register is readable; the others are as before (R23). -/
theorem State.setReg_readable (r q : Reg) (v : Word) :
    (s.setReg r v).readable q = (decide (q = r) || s.readable q) := by
  simp only [State.readable, State.setReg, Fin.getElem_fin, Vector.getElem_set, Fin.ext_iff]
  by_cases h : (q : Nat) = r
  · simp [h]
  · simp [h, Ne.symm h]
    rfl

@[simp] theorem State.setReg_readable_self (r : Reg) (v : Word) : (s.setReg r v).readable r = true := by
  simp [State.setReg_readable]

theorem State.setDest_reg (r q : Reg) (v : Word) : (s.setDest r v).reg q = if q = r then v else s.reg q :=
  State.setReg_reg s r q v

@[simp] theorem State.setDest_reg_self (r : Reg) (v : Word) : (s.setDest r v).reg r = v := State.setReg_reg_self s r v

theorem State.setDest_readable (r q : Reg) (v : Word) :
    (s.setDest r v).readable q = (decide (q = r) || s.readable q) := State.setReg_readable s r q v

theorem State.link_reg (q : Reg) : s.link.reg q = if q = 7 then s.pc else s.reg q := State.setReg_reg s 7 q s.pc

@[simp] theorem State.link_reg_seven : s.link.reg 7 = s.pc := State.setReg_reg_self s 7 s.pc

theorem State.link_readable (q : Reg) : s.link.readable q = (decide (q = 7) || s.readable q) :=
  State.setReg_readable s 7 q s.pc

/-- Under the default `GPR_RESET_MODE` every register is readable (R23). -/
theorem State.readable_of_zero (h : s.params.gprResetMode = .zero) (r : Reg) : s.readable r = true := by
  simp [State.readable, h]

end Sys2Proof.Machine
end

