-- ==== Sys2Proof/Laws/Ops.lean ====
section
/-! SUPPORT. For each shared operation, once, everything it can do. Later proofs cite these and unfold none of the
operations. -/

namespace Sys2Proof.Machine

/-! Operand forms. -/

/-- The formula of R12 is sign extension, for every field width. -/
theorem sext_eq_signExtend {n : Nat} (v : BitVec n) : sext v = v.signExtend 16 := by
  ext i hi
  have ones : 0xFFFF#16 = BitVec.allOnes 16 := by decide
  rw [BitVec.getElem_signExtend, BitVec.msb_eq_getLsbD_last, sext, ones]
  split
  · next hm =>
    by_cases h1 : i < n
    · simp [h1, BitVec.getLsbD_eq_getElem]
    · simp only [BitVec.getElem_or, BitVec.getElem_shiftLeft, BitVec.getElem_setWidth, h1, BitVec.getElem_allOnes]
      simp [hm]
  · next hm =>
    by_cases h1 : i < n
    · simp [h1, BitVec.getLsbD_eq_getElem]
    · simp [h1, BitVec.getLsbD_of_ge _ _ (by omega : n ≤ i), hm]

/-! Reads of registers. -/

theorem State.withReg_readable {s : State} {r : Reg} (h : s.readable r = true) (next : Word → State) :
    s.withReg r next = next (s.reg r) := by simp [State.withReg, h]

theorem State.withReg_unwritten {s : State} {r : Reg} (h : s.readable r = false) (next : Word → State) :
    s.withReg r next = s.stop (.unwrittenRegister r) := by simp [State.withReg, h]

/-- A register read goes on, or stops the run (R23). -/
theorem State.withReg_cases (s : State) (r : Reg) (next : Word → State) :
    (s.readable r = true ∧ s.withReg r next = next (s.reg r)) ∨
      (s.readable r = false ∧ s.withReg r next = s.stop (.unwrittenRegister r)) := by
  cases hr : s.readable r with
  | true => exact .inl ⟨rfl, State.withReg_readable hr next⟩
  | false => exact .inr ⟨rfl, State.withReg_unwritten hr next⟩

/-! Output. -/

theorem State.acceptsAll_iff (s : State) (n : Nat) :
    s.acceptsAll n = true ↔ ∀ k, s.accepts = some k → n ≤ k := by
  unfold State.acceptsAll
  split <;> simp_all

theorem State.acceptsAll_false_iff (s : State) (n : Nat) :
    s.acceptsAll n = false ↔ ∃ k, s.accepts = some k ∧ k < n := by
  unfold State.acceptsAll
  split <;> simp_all

@[simp] theorem State.acceptsAll_zero (s : State) : s.acceptsAll 0 = true := by simp [State.acceptsAll_iff]

@[simp] theorem State.acceptsAfter_zero (s : State) : s.acceptsAfter 0 = s.accepts := by
  simp [State.acceptsAfter]

/-- A host that accepts `m + n` events accepts the first `m`, and then `n` more. -/
theorem State.acceptsAll_add (s : State) (events : List OutEvent) (m n : Nat) :
    s.acceptsAll (m + n) = true ↔
      s.acceptsAll m = true ∧ (s.setOutput events (s.acceptsAfter m)).acceptsAll n = true := by
  cases h : s.accepts with
  | none => simp [State.acceptsAll, State.acceptsAfter, h]
  | some k => simp [State.acceptsAll, State.acceptsAfter, h]; omega

theorem State.acceptsAfter_add (s : State) (events : List OutEvent) (m n : Nat) :
    (s.setOutput events (s.acceptsAfter m)).acceptsAfter n = s.acceptsAfter (m + n) := by
  cases h : s.accepts with
  | none => simp [State.acceptsAfter, h]
  | some k => simp [State.acceptsAfter, h]; omega

@[simp] theorem State.setOutput_nil (s : State) : s.setOutput [] s.accepts = s := by
  simp [State.setOutput]

@[simp] theorem State.setOutput_setOutput (s : State) (e₁ e₂ : List OutEvent) (l₁ l₂ : Option Nat) :
    (s.setOutput e₁ l₁).setOutput e₂ l₂ = s.setOutput (e₁ ++ e₂) l₂ := by
  simp [State.setOutput]

/-- Output the host accepts is sent whole and the rest goes on. -/
theorem State.withOutput_accepted {s : State} {events : List OutEvent} (h : s.acceptsAll events.length = true)
    (next : State → State) :
    s.withOutput events next = next (s.setOutput events (s.acceptsAfter events.length)) := by
  simp [State.withOutput, h]

/-- Output the host does not accept whole ends the run after the part it accepted (R60, R204, R216). -/
theorem State.withOutput_refused {s : State} {events : List OutEvent} {k : Nat} (h : s.accepts = some k)
    (hk : k < events.length) (next : State → State) :
    s.withOutput events next = (s.setOutput (events.take k) (some 0)).stop .ioFailure := by
  have : s.acceptsAll events.length = false := (s.acceptsAll_false_iff _).mpr ⟨k, h, hk⟩
  simp [State.withOutput, this, h]

/-- Output does one or the other. -/
theorem State.withOutput_cases (s : State) (events : List OutEvent) (next : State → State) :
    (s.acceptsAll events.length = true ∧
      s.withOutput events next = next (s.setOutput events (s.acceptsAfter events.length))) ∨
    (∃ k, s.accepts = some k ∧ k < events.length ∧
      s.withOutput events next = (s.setOutput (events.take k) (some 0)).stop .ioFailure) := by
  cases h : s.acceptsAll events.length with
  | true => exact .inl ⟨rfl, State.withOutput_accepted h next⟩
  | false =>
    obtain ⟨k, hk, hlt⟩ := (s.acceptsAll_false_iff _).mp h
    exact .inr ⟨k, hk, hlt, State.withOutput_refused hk hlt next⟩

/-! Input. -/

theorem State.withInput_byte {s : State} {b : Byte} (h : s.nextAnswer = .byte b) (hd : Hold)
    (next : Byte → State → State) : s.withInput hd next = next b s.takeAnswer := by simp [State.withInput, h]

theorem State.withInput_nothing {s : State} (h : s.nextAnswer = .nothing) (hd : Hold) (next : Byte → State → State) :
    s.withInput hd next = s.takeAnswer.setHold (some hd) := by simp [State.withInput, h]

theorem State.withInput_failed {s : State} (h : s.nextAnswer = .failed) (hd : Hold) (next : Byte → State → State) :
    s.withInput hd next = s.takeAnswer.stop .ioFailure := by simp [State.withInput, h]

/-- A blocking read takes a byte and goes on, holds, or fails (R60, R61). -/
theorem State.withInput_cases (s : State) (hd : Hold) (next : Byte → State → State) :
    (∃ b, s.nextAnswer = .byte b ∧ s.withInput hd next = next b s.takeAnswer) ∨
      (s.nextAnswer = .nothing ∧ s.withInput hd next = s.takeAnswer.setHold (some hd)) ∨
      (s.nextAnswer = .failed ∧ s.withInput hd next = s.takeAnswer.stop .ioFailure) := by
  cases h : s.nextAnswer with
  | byte b => exact .inl ⟨b, rfl, State.withInput_byte h hd next⟩
  | nothing => exact .inr (.inl ⟨rfl, State.withInput_nothing h hd next⟩)
  | failed => exact .inr (.inr ⟨rfl, State.withInput_failed h hd next⟩)

/-! Taking an answer commutes with what does not touch the answers to come. -/

theorem State.takeAnswer_setOutput (s : State) (sent : List OutEvent) (left : Option Nat) :
    (s.setOutput sent left).takeAnswer = s.takeAnswer.setOutput sent left := by
  simp only [State.takeAnswer, State.setOutput_input]
  split <;> rfl

theorem State.takeAnswer_setHold (s : State) (hd : Option Hold) :
    (s.setHold hd).takeAnswer = s.takeAnswer.setHold hd := by
  simp only [State.takeAnswer, State.setHold_input]
  split <;> rfl

theorem State.takeAnswer_link (s : State) : s.link.takeAnswer = s.takeAnswer.link := by
  simp only [State.takeAnswer, State.link_input]
  split <;> rfl

/-! The poll and memory reads. -/

/-- A poll that gets a byte writes both keyboard registers (R46). -/
theorem State.poll_byte {s : State} {b : Byte} (h : s.nextAnswer = .byte b) :
    s.poll = (s.takeAnswer.memWrite s.params.kbsrAddr 0x8000).memWrite s.params.kbdrAddr (b.setWidth 16) := by
  simp [State.poll, h]

/-- A poll that gets none clears KBSR (R46). -/
theorem State.poll_none {s : State} (h : ∀ b, s.nextAnswer ≠ .byte b) :
    s.poll = s.takeAnswer.memWrite s.params.kbsrAddr 0x0000 := by
  unfold State.poll
  split
  · next b hb => exact absurd hb (h b)
  · rfl
  · rfl

/-- A poll does one or the other. -/
theorem State.poll_cases (s : State) :
    (∃ b, s.nextAnswer = .byte b ∧
      s.poll = (s.takeAnswer.memWrite s.params.kbsrAddr 0x8000).memWrite s.params.kbdrAddr (b.setWidth 16)) ∨
      ((∀ b, s.nextAnswer ≠ .byte b) ∧ s.poll = s.takeAnswer.memWrite s.params.kbsrAddr 0x0000) := by
  by_cases h : ∃ b, s.nextAnswer = .byte b
  · obtain ⟨b, hb⟩ := h
    exact .inl ⟨b, hb, State.poll_byte hb⟩
  · have h : ∀ b, s.nextAnswer ≠ .byte b := fun b hb => h ⟨b, hb⟩
    exact .inr ⟨h, State.poll_none h⟩

/-- A read changes nothing but memory and the host's answers left, and these only by a poll. -/
theorem State.afterRead_cases (s : State) (a : Word) :
    (a ≠ s.params.kbsrAddr ∧ s.afterRead a = s) ∨ (a = s.params.kbsrAddr ∧ s.afterRead a = s.poll) := by
  by_cases h : a = s.params.kbsrAddr
  · exact .inr ⟨h, by simp [State.afterRead, h]⟩
  · exact .inl ⟨h, by simp [State.afterRead, h]⟩

theorem State.afterRead_ne {s : State} {a : Word} (h : a ≠ s.params.kbsrAddr) : s.afterRead a = s := by
  simp [State.afterRead, h]

theorem State.afterRead_kbsr {s : State} {a : Word} (h : a = s.params.kbsrAddr) : s.afterRead a = s.poll := by
  simp [State.afterRead, h]

@[simp] theorem State.memRead_state (s : State) (a : Word) : (s.memRead a).2 = s.afterRead a := rfl
@[simp] theorem State.memRead_value (s : State) (a : Word) :
    (s.memRead a).1 = (s.afterRead a).mem.readWord a := rfl

section
variable (s : State) (a : Word)

theorem State.poll_keeps : s.poll.params = s.params ∧ s.poll.regs = s.regs ∧ s.poll.written = s.written ∧
    s.poll.pc = s.pc ∧ s.poll.cond = s.cond ∧ s.poll.run = s.run ∧ s.poll.hold = s.hold ∧
    s.poll.output = s.output ∧ s.poll.accepts = s.accepts := by
  rcases s.poll_cases with ⟨b, -, h⟩ | ⟨-, h⟩ <;> rw [h] <;> simp

theorem State.afterRead_keeps : (s.afterRead a).params = s.params ∧ (s.afterRead a).regs = s.regs ∧
    (s.afterRead a).written = s.written ∧ (s.afterRead a).pc = s.pc ∧ (s.afterRead a).cond = s.cond ∧
    (s.afterRead a).run = s.run ∧ (s.afterRead a).hold = s.hold ∧ (s.afterRead a).output = s.output ∧
    (s.afterRead a).accepts = s.accepts := by
  rcases s.afterRead_cases a with ⟨-, h⟩ | ⟨-, h⟩
  · simp [h]
  · rw [h]; exact s.poll_keeps

@[simp] theorem State.afterRead_params : (s.afterRead a).params = s.params := (s.afterRead_keeps a).1
@[simp] theorem State.afterRead_regs : (s.afterRead a).regs = s.regs := (s.afterRead_keeps a).2.1
@[simp] theorem State.afterRead_written : (s.afterRead a).written = s.written := (s.afterRead_keeps a).2.2.1
@[simp] theorem State.afterRead_pc : (s.afterRead a).pc = s.pc := (s.afterRead_keeps a).2.2.2.1
@[simp] theorem State.afterRead_cond : (s.afterRead a).cond = s.cond := (s.afterRead_keeps a).2.2.2.2.1
@[simp] theorem State.afterRead_run : (s.afterRead a).run = s.run := (s.afterRead_keeps a).2.2.2.2.2.1
@[simp] theorem State.afterRead_hold : (s.afterRead a).hold = s.hold := (s.afterRead_keeps a).2.2.2.2.2.2.1
@[simp] theorem State.afterRead_output : (s.afterRead a).output = s.output := (s.afterRead_keeps a).2.2.2.2.2.2.2.1
@[simp] theorem State.afterRead_accepts : (s.afterRead a).accepts = s.accepts := (s.afterRead_keeps a).2.2.2.2.2.2.2.2
@[simp] theorem State.afterRead_reg (r : Reg) : (s.afterRead a).reg r = s.reg r := by simp [State.reg]
@[simp] theorem State.afterRead_readable (r : Reg) : (s.afterRead a).readable r = s.readable r := by
  simp [State.readable]

/-- A poll takes one answer. -/
theorem State.poll_input : s.poll.input = s.takeAnswer.input ∧ s.poll.drawn = s.takeAnswer.drawn := by
  rcases s.poll_cases with ⟨b, -, h⟩ | ⟨-, h⟩ <;> rw [h] <;> simp

/-- A store keeps the canonical form of memory. -/
theorem State.memWrite_mem_wf {u : State} (hm : u.mem.wf) (c v : Word) : (u.memWrite c v).mem.wf :=
  Memory.writeWord_wf hm c v

/-- A read keeps the canonical form of memory. -/
theorem State.afterRead_mem_wf (hm : s.mem.wf) : (s.afterRead a).mem.wf := by
  rcases s.afterRead_cases a with ⟨-, h⟩ | ⟨-, h⟩
  · rwa [h]
  · rw [h]
    rcases s.poll_cases with ⟨b, -, h⟩ | ⟨-, h⟩ <;> rw [h]
    · exact State.memWrite_mem_wf (State.memWrite_mem_wf (by simpa using hm) _ _) _ _
    · exact State.memWrite_mem_wf (by simpa using hm) _ _

/-- A read changes no word but the two keyboard registers. -/
theorem State.afterRead_mem_ne {c : Word} (hs : c ≠ s.params.kbsrAddr) (hd : c ≠ s.params.kbdrAddr) :
    (s.afterRead a).mem.readWord c = s.mem.readWord c := by
  rcases s.afterRead_cases a with ⟨-, h⟩ | ⟨-, h⟩
  · rw [h]
  · rw [h]
    rcases s.poll_cases with ⟨b, -, h⟩ | ⟨-, h⟩ <;> rw [h] <;> simp [Memory.readWord_writeWord, hs, hd]

end

/-- A poll, and so a read, commutes with output, with the link write and with a hold. -/
theorem State.afterRead_setOutput (s : State) (a : Word) (sent : List OutEvent) (left : Option Nat) :
    (s.setOutput sent left).afterRead a = (s.afterRead a).setOutput sent left := by
  rcases s.afterRead_cases a with ⟨h, e⟩ | ⟨h, e⟩
  · rw [e, State.afterRead_ne (s := s.setOutput sent left) h]
  · rw [e, State.afterRead_kbsr (s := s.setOutput sent left) h]
    simp only [State.poll, State.takeAnswer_setOutput, State.nextAnswer_congr (State.setOutput_input s sent left)
      (State.setOutput_drawn s sent left)]
    split <;> rfl

theorem State.afterRead_link (s : State) (a : Word) : s.link.afterRead a = (s.afterRead a).link := by
  rcases s.afterRead_cases a with ⟨h, e⟩ | ⟨h, e⟩
  · rw [e, State.afterRead_ne (s := s.link) h]
  · rw [e, State.afterRead_kbsr (s := s.link) h]
    simp only [State.poll, State.takeAnswer_link, State.nextAnswer_congr (State.link_input s) (State.link_drawn s)]
    split <;> rfl

theorem State.afterRead_setHold (s : State) (a : Word) (hd : Option Hold) :
    (s.setHold hd).afterRead a = (s.afterRead a).setHold hd := by
  rcases s.afterRead_cases a with ⟨h, e⟩ | ⟨h, e⟩
  · rw [e, State.afterRead_ne (s := s.setHold hd) h]
  · rw [e, State.afterRead_kbsr (s := s.setHold hd) h]
    simp only [State.poll, State.takeAnswer_setHold, State.nextAnswer_congr (State.setHold_input s hd)
      (State.setHold_drawn s hd)]
    split <;> rfl

/-! The loop of PUTS and PUTSP. -/

theorem passWords_eq : passWords = 65536 := rfl

/-- PUTS and PUTSP run the loop from R0 on, where R0 may be read. -/
theorem State.putString_readable {s : State} (h : s.readable 0 = true) (service : StringService) :
    s.putString service = State.scan service 65536 (s.reg 0) s := by
  rw [State.putString, State.withReg_readable h, passWords_eq]

/-- A held string goes on with the loop. -/
theorem State.resume_string (s : State) (service : StringService) (a : Word) :
    s.resume (.string service a) = State.scan service 65536 a (s.setHold none) := by
  rw [← passWords_eq]
  rfl

/-- After its last word the loop holds. -/
theorem State.scan_end (service : StringService) (a : Word) (s : State) :
    State.scan service 0 a s = s.setHold (some (.string service a)) := rfl

/-- A zero word ends the loop with the flush (R173). -/
theorem State.scan_zero {service : StringService} {words : Nat} {a : Word} {s : State}
    (h : (s.afterRead a).mem.readWord a = 0) :
    State.scan service (words + 1) a s = (s.afterRead a).withOutput [.flush] id := by
  simp only [State.scan, State.memRead_value, State.memRead_state, h, if_true]

/-- Any other word is sent and the loop goes on at the next address, modulo 2^16 (R173, D13). -/
theorem State.scan_nonzero {service : StringService} {words : Nat} {a : Word} {s : State}
    (h : (s.afterRead a).mem.readWord a ≠ 0) :
    State.scan service (words + 1) a s =
      (s.afterRead a).withOutput (wordEvents service ((s.afterRead a).mem.readWord a))
        (State.scan service words (a + 1)) := by
  simp only [State.scan, State.memRead_value, State.memRead_state, h, if_false]

/-! Fetch. -/

/-- R26, R236: the fetch reads the word at PC; at 0xFFFF it ends the run, elsewhere it increments PC. -/
theorem State.fetch_ceiling {s : State} (h : s.pc = 0xFFFF) :
    s.fetch = .ceiling ((s.afterRead s.pc).stop .pcCeiling) := by simp [State.fetch, h]

theorem State.fetch_word {s : State} (h : s.pc ≠ 0xFFFF) :
    s.fetch = .word ((s.afterRead s.pc).mem.readWord s.pc) ((s.afterRead s.pc).setPc (s.pc + 1)) := by
  simp only [State.fetch, if_neg h, State.memRead_state, State.memRead_value]

end Sys2Proof.Machine
end

