-- ==== Sys2Proof/Laws/Step.lean ====
section
/-! SUPPORT. What one step can do, once. -/

namespace Sys2Proof.Machine

/-- A step that answers a next state ran in `Running`: it went on with a held service, stopped at the ceiling, or
executed the decoded word. -/
theorem step_cases {s t : State} (h : step s = .next t) :
    s.run = .running ∧
      ((∃ hd, s.hold = some hd ∧ t = s.resume hd) ∨
        (s.hold = none ∧ s.pc = 0xFFFF ∧ t = (s.afterRead s.pc).stop .pcCeiling) ∨
        (s.hold = none ∧ s.pc ≠ 0xFFFF ∧
          exec (decode ((s.afterRead s.pc).mem.readWord s.pc)) ((s.afterRead s.pc).setPc (s.pc + 1)) = .next t)) := by
  unfold step at h
  split at h
  · cases h
  · cases h
  · next hrun =>
    refine ⟨hrun, ?_⟩
    split at h
    · next hd hhd => cases h; exact .inl ⟨hd, hhd, rfl⟩
    · next hhd =>
      by_cases hpc : s.pc = 0xFFFF
      · rw [State.fetch_ceiling hpc] at h
        cases h
        exact .inr (.inl ⟨hhd, hpc, rfl⟩)
      · rw [State.fetch_word hpc] at h
        exact .inr (.inr ⟨hhd, hpc, h⟩)

/-- A held core's step is its service going on. -/
theorem step_held {s : State} {hd : Hold} (hrun : s.run = .running) (hhd : s.hold = some hd) :
    step s = .next (s.resume hd) := by simp [step, hrun, hhd]

/-- Placing a word does place it: the fetch of `withFetchWord` reads it back. -/
theorem State.withFetchWord_word (s : State) {w : Nat} (hw : w < 2 ^ 16) :
    (s.withFetchWord 16 w).mem.readWord s.pc = BitVec.ofNat 16 w := by
  have h : w % 2 ^ 16 = w := Nat.mod_eq_of_lt hw
  simp only [State.withFetchWord, Nat.min_self, h, State.memWrite_mem, Memory.readWord_writeWord_self]

end Sys2Proof.Machine
end

