-- ==== Sys2Proof/Laws/Exec.lean ====
section
/-! SUPPORT. Whatever every primitive operation keeps, every instruction and every step keeps. Invariants and frames
that do not depend on the instruction cite this and split no instruction. -/

namespace Sys2Proof.Machine

/-- `P` is kept by each operation the meanings are made of. -/
structure Kept (P : State → Prop) : Prop where
  read : ∀ s a, P s → P (s.afterRead a)
  write : ∀ s a v, P s → P (s.memWrite a v)
  dest : ∀ s r v, P s → P (s.setDest r v)
  link : ∀ s, P s → P s.link
  pc : ∀ s v, P s → P (s.setPc v)
  out : ∀ s sent left, P s → P (s.setOutput sent left)
  input : ∀ s : State, P s → P s.takeAnswer
  hold : ∀ s hd, P s → P (s.setHold hd)
  stop : ∀ s reason, P s → P (s.stop reason)
  halt : ∀ s : State, P s → P s.halt

variable {P : State → Prop} (K : Kept P) {s t : State}
include K

theorem Kept.withReg (hs : P s) (r : Reg) {next : Word → State} (hn : ∀ v, P (next v)) : P (s.withReg r next) := by
  rcases s.withReg_cases r next with ⟨-, e⟩ | ⟨-, e⟩ <;> rw [e]
  · exact hn _
  · exact K.stop _ _ hs

theorem Kept.withOutput (hs : P s) (events : List OutEvent) {next : State → State} (hn : ∀ u, P u → P (next u)) :
    P (s.withOutput events next) := by
  rcases s.withOutput_cases events next with ⟨-, e⟩ | ⟨k, -, -, e⟩ <;> rw [e]
  · exact hn _ (K.out _ _ _ hs)
  · exact K.stop _ _ (K.out _ _ _ hs)

theorem Kept.withInput (hs : P s) (hd : Hold) {next : Byte → State → State} (hn : ∀ b u, P u → P (next b u)) :
    P (s.withInput hd next) := by
  rcases s.withInput_cases hd next with ⟨b, -, e⟩ | ⟨-, e⟩ | ⟨-, e⟩ <;> rw [e]
  · exact hn _ _ (K.input _ hs)
  · exact K.hold _ _ (K.input _ hs)
  · exact K.stop _ _ (K.input _ hs)

/-- The end of IN. -/
theorem Kept.finishIn (b : Byte) (hs : P s) : P (State.finishIn b s) :=
  K.withOutput hs _ fun _ hu => K.dest _ _ _ hu

/-- The loop of PUTS and PUTSP. -/
theorem Kept.scan (service : StringService) (words : Nat) (a : Word) (hs : P s) :
    P (State.scan service words a s) := by
  induction words generalizing a s with
  | zero => exact K.hold _ _ hs
  | succ n ih =>
    by_cases h : (s.afterRead a).mem.readWord a = 0
    · rw [State.scan_zero h]; exact K.withOutput (K.read _ _ hs) _ fun _ hu => hu
    · rw [State.scan_nonzero h]; exact K.withOutput (K.read _ _ hs) _ fun _ hu => ih _ hu

/-- Every instruction keeps `P`. -/
theorem exec_keeps {i : Instr} (h : exec i s = .next t) (hs : P s) : P t := by
  cases i <;> cases h
  case br => split; exacts [K.pc _ _ hs, hs]
  case addReg => exact K.withReg hs _ fun _ => K.withReg hs _ fun _ => K.dest _ _ _ hs
  case addImm => exact K.withReg hs _ fun _ => K.dest _ _ _ hs
  case ld => exact K.dest _ _ _ (K.read _ _ hs)
  case st => exact K.withReg hs _ fun _ => K.write _ _ _ hs
  case jsr => exact K.pc _ _ (K.link _ hs)
  case jsrr =>
    split
    · exact K.withReg (K.link _ hs) _ fun _ => K.pc _ _ (K.link _ hs)
    · exact K.withReg hs _ fun _ => K.pc _ _ (K.link _ hs)
  case andReg => exact K.withReg hs _ fun _ => K.withReg hs _ fun _ => K.dest _ _ _ hs
  case andImm => exact K.withReg hs _ fun _ => K.dest _ _ _ hs
  case ldr => exact K.withReg hs _ fun _ => K.dest _ _ _ (K.read _ _ hs)
  case str => exact K.withReg hs _ fun _ => K.withReg hs _ fun _ => K.write _ _ _ hs
  case rti => exact K.stop _ _ hs
  case not => exact K.withReg hs _ fun _ => K.dest _ _ _ hs
  case ldi => exact K.dest _ _ _ (K.read _ _ (K.read _ _ hs))
  case sti => exact K.withReg (K.read _ _ hs) _ fun _ => K.write _ _ _ (K.read _ _ hs)
  case jmp => exact K.withReg hs _ fun _ => K.pc _ _ hs
  case res => exact K.stop _ _ hs
  case lea => exact K.dest _ _ _ hs
  case trapGetc => exact K.withInput (K.link _ hs) _ fun _ _ hu => K.dest _ _ _ hu
  case trapOut => exact K.withReg (K.link _ hs) _ fun _ => K.withOutput (K.link _ hs) _ fun _ hu => hu
  case trapPuts => exact K.withReg (K.link _ hs) _ fun _ => K.scan _ _ _ (K.link _ hs)
  case trapIn =>
    exact K.withOutput (K.link _ hs) _ fun _ hu => K.withInput hu _ fun _ _ hv => K.finishIn _ hv
  case trapPutsp => exact K.withReg (K.link _ hs) _ fun _ => K.scan _ _ _ (K.link _ hs)
  case trapHalt => exact K.withOutput (K.link _ hs) _ fun _ hu => K.halt _ hu
  case trapUnknown => exact K.stop _ _ (K.link _ hs)

/-- Every step keeps `P`. -/
theorem step_keeps (h : step s = .next t) (hs : P s) : P t := by
  rcases (step_cases h).2 with ⟨hd, -, rfl⟩ | ⟨-, -, rfl⟩ | ⟨-, -, h⟩
  · have hs := K.hold _ none hs
    cases hd with
    | getc => exact K.withInput hs _ fun _ _ hu => K.dest _ _ _ hu
    | inService => exact K.withInput hs _ fun _ _ hu => K.finishIn _ hu
    | string service next => exact K.scan _ _ _ hs
  · exact K.stop _ _ (K.read _ _ hs)
  · exact exec_keeps K h (K.pc _ _ (K.read _ _ hs))

end Sys2Proof.Machine
end

