-- ==== Sys2Proof/Laws/PerInstr.lean ====
section
/-! SUPPORT. Statements made per instruction, about the instruction as syntax. EncodesRow: the encoder's word lies in the
instruction's own row of the opcode table. -/

namespace Sys2Proof.Laws.EncodesRow

/-- The word the encoder writes matches the row of spec/opcode_table.json that the instruction stands for. -/
def Statement (i : Instr) : Prop := encode i &&& i.row.mask = i.row.value

/-- Two words are equal if their sixteen bits are. -/
theorem word_ext {v w : Word} (h : ∀ i : Fin 16, v.getLsbD i = w.getLsbD i) : v = w :=
  BitVec.eq_of_getLsbD_eq fun i hi => h ⟨i, hi⟩

theorem br (n z p : Bool) (off : BitVec 9) : Statement (.br n z p off) := by
  refine word_ext fun i => ?_
  simp only [encode, Instr.row, BitVec.getLsbD_and, BitVec.getLsbD_append]
  fin_cases i <;> simp

theorem addReg (dr sr1 sr2 : Reg) : Statement (.addReg dr sr1 sr2) := by
  refine word_ext fun i => ?_
  simp only [encode, encodeOpr, Instr.row, BitVec.getLsbD_and, BitVec.getLsbD_append]
  fin_cases i <;> simp

theorem addImm (dr sr1 : Reg) (imm5 : BitVec 5) : Statement (.addImm dr sr1 imm5) := by
  refine word_ext fun i => ?_
  simp only [encode, encodeOpi, Instr.row, BitVec.getLsbD_and, BitVec.getLsbD_append]
  fin_cases i <;> simp

theorem ld (dr : Reg) (off : BitVec 9) : Statement (.ld dr off) := by
  refine word_ext fun i => ?_
  simp only [encode, encodePcr, Instr.row, BitVec.getLsbD_and, BitVec.getLsbD_append]
  fin_cases i <;> simp

theorem st (sr : Reg) (off : BitVec 9) : Statement (.st sr off) := by
  refine word_ext fun i => ?_
  simp only [encode, encodePcr, Instr.row, BitVec.getLsbD_and, BitVec.getLsbD_append]
  fin_cases i <;> simp

theorem jsr (off : BitVec 11) : Statement (.jsr off) := by
  refine word_ext fun i => ?_
  simp only [encode, Instr.row, BitVec.getLsbD_and, BitVec.getLsbD_append]
  fin_cases i <;> simp

theorem jsrr (base : Reg) : Statement (.jsrr base) := by
  refine word_ext fun i => ?_
  simp only [encode, Instr.row, BitVec.getLsbD_and, BitVec.getLsbD_append]
  fin_cases i <;> simp

theorem andReg (dr sr1 sr2 : Reg) : Statement (.andReg dr sr1 sr2) := by
  refine word_ext fun i => ?_
  simp only [encode, encodeOpr, Instr.row, BitVec.getLsbD_and, BitVec.getLsbD_append]
  fin_cases i <;> simp

theorem andImm (dr sr1 : Reg) (imm5 : BitVec 5) : Statement (.andImm dr sr1 imm5) := by
  refine word_ext fun i => ?_
  simp only [encode, encodeOpi, Instr.row, BitVec.getLsbD_and, BitVec.getLsbD_append]
  fin_cases i <;> simp

theorem ldr (dr base : Reg) (off : BitVec 6) : Statement (.ldr dr base off) := by
  refine word_ext fun i => ?_
  simp only [encode, encodeBof, Instr.row, BitVec.getLsbD_and, BitVec.getLsbD_append]
  fin_cases i <;> simp

theorem str (sr base : Reg) (off : BitVec 6) : Statement (.str sr base off) := by
  refine word_ext fun i => ?_
  simp only [encode, encodeBof, Instr.row, BitVec.getLsbD_and, BitVec.getLsbD_append]
  fin_cases i <;> simp

theorem rti : Statement .rti := by unfold Statement; decide

theorem not (dr sr : Reg) : Statement (.not dr sr) := by
  refine word_ext fun i => ?_
  simp only [encode, Instr.row, BitVec.getLsbD_and, BitVec.getLsbD_append]
  fin_cases i <;> simp

theorem ldi (dr : Reg) (off : BitVec 9) : Statement (.ldi dr off) := by
  refine word_ext fun i => ?_
  simp only [encode, encodePcr, Instr.row, BitVec.getLsbD_and, BitVec.getLsbD_append]
  fin_cases i <;> simp

theorem sti (sr : Reg) (off : BitVec 9) : Statement (.sti sr off) := by
  refine word_ext fun i => ?_
  simp only [encode, encodePcr, Instr.row, BitVec.getLsbD_and, BitVec.getLsbD_append]
  fin_cases i <;> simp

theorem jmp (base : Reg) : Statement (.jmp base) := by
  refine word_ext fun i => ?_
  simp only [encode, Instr.row, BitVec.getLsbD_and, BitVec.getLsbD_append]
  fin_cases i <;> simp

theorem res : Statement .res := by unfold Statement; decide

theorem lea (dr : Reg) (off : BitVec 9) : Statement (.lea dr off) := by
  refine word_ext fun i => ?_
  simp only [encode, encodePcr, Instr.row, BitVec.getLsbD_and, BitVec.getLsbD_append]
  fin_cases i <;> simp

theorem trapGetc : Statement .trapGetc := by unfold Statement; decide

theorem trapOut : Statement .trapOut := by unfold Statement; decide

theorem trapPuts : Statement .trapPuts := by unfold Statement; decide

theorem trapIn : Statement .trapIn := by unfold Statement; decide

theorem trapPutsp : Statement .trapPutsp := by unfold Statement; decide

theorem trapHalt : Statement .trapHalt := by unfold Statement; decide

theorem trapUnknown (code : BitVec 8) : Statement (.trapUnknown code) := by
  refine word_ext fun i => ?_
  simp only [encode, encodeTrap, Instr.row, unknownTrapRow, BitVec.getLsbD_and, BitVec.getLsbD_append]
  fin_cases i <;> simp

end Sys2Proof.Laws.EncodesRow
end

