-- ==== Sys2Proof/Laws/Strings.lean ====
section
/-! SUPPORT. What the loop of PUTS and PUTSP does over any number of words, once. -/

namespace Sys2Proof.Machine

/-- The address after `k + 1` words. -/
theorem add_ofNat_succ (a : Word) (k : Nat) : a + BitVec.ofNat 16 (k + 1) = a + 1 + BitVec.ofNat 16 k := by
  rw [Nat.add_comm k 1, BitVec.ofNat_add, BitVec.add_assoc]
  rfl

@[simp] theorem State.afterReads_zero (s : State) (a : Word) : s.afterReads a 0 = s := rfl

theorem State.afterReads_cons (s : State) (a : Word) (n : Nat) :
    s.afterReads a (n + 1) = (s.afterRead a).afterReads (a + 1) n := rfl

theorem State.wordRead_zero (s : State) (a : Word) : s.wordRead a 0 = (s.afterRead a).mem.readWord a := by
  simp [State.wordRead, State.afterReads]

theorem State.wordRead_succ (s : State) (a : Word) (k : Nat) :
    s.wordRead a (k + 1) = (s.afterRead a).wordRead (a + 1) k := by
  simp only [State.wordRead, State.afterReads, State.memRead_state, add_ofNat_succ]

/-- Reads commute with output, with the link write and with a hold. -/
theorem State.afterReads_setOutput (s : State) (a : Word) (n : Nat) (sent : List OutEvent) (left : Option Nat) :
    (s.setOutput sent left).afterReads a n = (s.afterReads a n).setOutput sent left := by
  induction n generalizing s a with
  | zero => rfl
  | succ n ih => simp only [State.afterReads, State.memRead_state, State.afterRead_setOutput, ih]

theorem State.afterReads_link (s : State) (a : Word) (n : Nat) : s.link.afterReads a n = (s.afterReads a n).link := by
  induction n generalizing s a with
  | zero => rfl
  | succ n ih => simp only [State.afterReads, State.memRead_state, State.afterRead_link, ih]

theorem State.afterReads_setHold (s : State) (a : Word) (n : Nat) (hd : Option Hold) :
    (s.setHold hd).afterReads a n = (s.afterReads a n).setHold hd := by
  induction n generalizing s a with
  | zero => rfl
  | succ n ih => simp only [State.afterReads, State.memRead_state, State.afterRead_setHold, ih]

@[simp] theorem State.wordRead_setOutput (s : State) (a : Word) (k : Nat) (sent : List OutEvent) (left : Option Nat) :
    (s.setOutput sent left).wordRead a k = s.wordRead a k := by
  simp [State.wordRead, State.afterReads_setOutput, State.afterRead_setOutput]

@[simp] theorem State.wordRead_link (s : State) (a : Word) (k : Nat) : s.link.wordRead a k = s.wordRead a k := by
  simp [State.wordRead, State.afterReads_link, State.afterRead_link]

@[simp] theorem State.wordRead_setHold (s : State) (a : Word) (k : Nat) (hd : Option Hold) :
    (s.setHold hd).wordRead a k = s.wordRead a k := by
  simp [State.wordRead, State.afterReads_setHold, State.afterRead_setHold]

/-- One read more at the end. -/
theorem State.afterReads_succ (s : State) (a : Word) (n : Nat) :
    s.afterReads a (n + 1) = (s.afterReads a n).afterRead (a + BitVec.ofNat 16 n) := by
  induction n generalizing s a with
  | zero => simp [State.afterReads]
  | succ n ih =>
    rw [add_ofNat_succ, State.afterReads_cons s a (n + 1), State.afterReads_cons s a n, ih]

/-- Reads change nothing but memory and the answers to come. -/
theorem State.afterReads_keeps (s : State) (a : Word) (n : Nat) : (s.afterReads a n).params = s.params ∧
    (s.afterReads a n).regs = s.regs ∧ (s.afterReads a n).written = s.written ∧ (s.afterReads a n).pc = s.pc ∧
    (s.afterReads a n).cond = s.cond ∧ (s.afterReads a n).run = s.run ∧ (s.afterReads a n).hold = s.hold ∧
    (s.afterReads a n).output = s.output ∧ (s.afterReads a n).accepts = s.accepts := by
  induction n with
  | zero => simp [State.afterReads]
  | succ n ih => rw [State.afterReads_succ]; simpa using ih

section
variable (s : State) (a : Word) (n : Nat)

@[simp] theorem State.afterReads_params : (s.afterReads a n).params = s.params := (s.afterReads_keeps a n).1
@[simp] theorem State.afterReads_regs : (s.afterReads a n).regs = s.regs := (s.afterReads_keeps a n).2.1
@[simp] theorem State.afterReads_written : (s.afterReads a n).written = s.written := (s.afterReads_keeps a n).2.2.1
@[simp] theorem State.afterReads_pc : (s.afterReads a n).pc = s.pc := (s.afterReads_keeps a n).2.2.2.1
@[simp] theorem State.afterReads_cond : (s.afterReads a n).cond = s.cond := (s.afterReads_keeps a n).2.2.2.2.1
@[simp] theorem State.afterReads_run : (s.afterReads a n).run = s.run := (s.afterReads_keeps a n).2.2.2.2.2.1
@[simp] theorem State.afterReads_hold : (s.afterReads a n).hold = s.hold := (s.afterReads_keeps a n).2.2.2.2.2.2.1
@[simp] theorem State.afterReads_output : (s.afterReads a n).output = s.output :=
  (s.afterReads_keeps a n).2.2.2.2.2.2.2.1
@[simp] theorem State.afterReads_accepts : (s.afterReads a n).accepts = s.accepts :=
  (s.afterReads_keeps a n).2.2.2.2.2.2.2.2
@[simp] theorem State.afterReads_reg (r : Reg) : (s.afterReads a n).reg r = s.reg r := by simp [State.reg]
@[simp] theorem State.afterReads_readable (r : Reg) : (s.afterReads a n).readable r = s.readable r := by
  simp [State.readable]

end

/-- Reads that pass by KBSR change nothing. -/
theorem State.afterReads_plain {s : State} {a : Word} {n : Nat}
    (h : ∀ k < n, a + BitVec.ofNat 16 k ≠ s.params.kbsrAddr) : s.afterReads a n = s := by
  induction n with
  | zero => rfl
  | succ n ih =>
    rw [State.afterReads_succ, ih fun k hk => h k (by omega), State.afterRead_ne (h n (by omega))]

theorem State.wordRead_plain {s : State} {a : Word} {k : Nat}
    (h : ∀ j ≤ k, a + BitVec.ofNat 16 j ≠ s.params.kbsrAddr) :
    s.wordRead a k = s.mem.readWord (a + BitVec.ofNat 16 k) := by
  simp [State.wordRead, State.afterReads_plain fun j (hj : j < k) => h j (by omega), State.afterRead_ne (h k (by omega))]

/-- Reads of at most one pass over memory that come to KBSR poll once. -/
theorem State.afterReads_kbsr {s : State} {a : Word} {j n : Nat} (hj : j < n) (hn : n ≤ 65536)
    (h : a + BitVec.ofNat 16 j = s.params.kbsrAddr) : s.afterReads a n = s.poll := by
  have other : ∀ k < n, k ≠ j → a + BitVec.ofNat 16 k ≠ s.params.kbsrAddr := by
    intro k hk hkj e
    rw [← h] at e
    have := congrArg BitVec.toNat ((BitVec.add_right_inj a).mp e)
    rw [BitVec.toNat_ofNat, BitVec.toNat_ofNat, Nat.mod_eq_of_lt (by omega), Nat.mod_eq_of_lt (by omega)] at this
    exact hkj this
  induction n with
  | zero => omega
  | succ n ih =>
    rw [State.afterReads_succ]
    by_cases e : j = n
    · subst e
      rw [State.afterReads_plain fun k hk => other k (by omega) (by omega), State.afterRead_kbsr h]
    · rw [ih (by omega) (by omega) fun k hk => other k (by omega), State.afterRead_ne]
      rw [s.poll_keeps.1]
      exact other n (by omega) (by omega)

/-- Where the first `n` words read are not zero and the host accepts what they send, the loop goes on after them. -/
theorem State.scan_run (service : StringService) {n more : Nat} {a : Word} {s : State} {sent : List OutEvent}
    (hw : ∀ k < n, s.wordRead a k ≠ 0)
    (hs : sent = (List.range n).flatMap fun k => wordEvents service (s.wordRead a k))
    (ha : s.acceptsAll sent.length = true) :
    State.scan service (n + more) a s =
      State.scan service more (a + BitVec.ofNat 16 n)
        ((s.afterReads a n).setOutput sent (s.acceptsAfter sent.length)) := by
  induction n generalizing s a sent with
  | zero => subst hs; simp [State.afterReads]
  | succ n ih =>
    have hz : (s.afterRead a).mem.readWord a ≠ 0 := by rw [← s.wordRead_zero]; exact hw 0 (by omega)
    have hs : sent = wordEvents service (s.wordRead a 0) ++
        (List.range n).flatMap fun k => wordEvents service ((s.afterRead a).wordRead (a + 1) k) := by
      rw [hs, List.range_succ_eq_map, List.flatMap_cons, List.flatMap_map]
      simp only [Nat.succ_eq_add_one, State.wordRead_succ]
    have ha' := ha
    rw [hs, List.length_append, s.acceptsAll_add (wordEvents service (s.wordRead a 0))] at ha'
    rw [show n + 1 + more = (n + more) + 1 by omega, State.scan_nonzero hz, ← s.wordRead_zero,
      State.withOutput_accepted (by rw [← ha'.1]; exact State.acceptsAll_congr (by simp) _),
      State.acceptsAfter_congr (State.afterRead_accepts s a),
      ih (sent := (List.range n).flatMap fun k => wordEvents service ((s.afterRead a).wordRead (a + 1) k))
        (fun k hk => by
          rw [State.wordRead_setOutput, ← State.wordRead_succ]; exact hw (k + 1) (by omega))
        (by simp only [State.wordRead_setOutput])
        (by rw [← ha'.2]; exact State.acceptsAll_congr (by simp) _)]
    rw [← add_ofNat_succ, State.afterReads_setOutput, State.setOutput_setOutput, ← hs]
    congr 2
    rw [hs, List.length_append, ← State.acceptsAfter_add s (wordEvents service (s.wordRead a 0))]
    exact State.acceptsAfter_congr (by simp) _

theorem wordEvents_length (service : StringService) (w : Word) : 1 ≤ (wordEvents service w).length := by
  cases service
  · simp [wordEvents]
  · simp only [wordEvents]; split <;> simp

/-- A loop over `n` words leaves the hold as it was, or read no zero word, sent all and holds at the word after them.
Proofs about a whole pass cite this and `scan_run` for a variable `n`: the kernel unfolds a loop over 65536 words. -/
theorem State.scan_cases (service : StringService) (n : Nat) (a : Word) (s : State) :
    (State.scan service n a s).hold = s.hold ∨
      ∃ sent, sent = ((List.range n).flatMap fun k => wordEvents service (s.wordRead a k)) ∧
        (∀ k < n, s.wordRead a k ≠ 0) ∧ s.acceptsAll sent.length = true ∧ n ≤ sent.length ∧
        State.scan service n a s = ((s.afterReads a n).setOutput sent (s.acceptsAfter sent.length)).setHold
          (some (.string service (a + BitVec.ofNat 16 n))) := by
  suffices h : (State.scan service n a s).hold = s.hold ∨
      ∃ sent, sent = ((List.range n).flatMap fun k => wordEvents service (s.wordRead a k)) ∧
        (∀ k < n, s.wordRead a k ≠ 0) ∧ s.acceptsAll sent.length = true ∧ n ≤ sent.length by
    refine h.imp_right ?_
    rintro ⟨sent, hs, hw, ha, hn⟩
    exact ⟨sent, hs, hw, ha, hn, by rw [← State.scan_end, ← State.scan_run service hw hs ha, Nat.add_zero]⟩
  induction n generalizing a s with
  | zero => exact .inr (by simp)
  | succ n ih =>
    by_cases hz : (s.afterRead a).mem.readWord a = 0
    · left
      rw [State.scan_zero hz]
      rcases State.withOutput_cases (s.afterRead a) [.flush] id with ⟨-, e⟩ | ⟨_, -, -, e⟩ <;> rw [e] <;> simp
    · rw [State.scan_nonzero hz]
      generalize hw0 : (s.afterRead a).mem.readWord a = w at hz ⊢
      rcases State.withOutput_cases (s.afterRead a) (wordEvents service w) (State.scan service n (a + 1)) with
        ⟨ha, e⟩ | ⟨_, -, -, e⟩
      · rw [e]
        rcases ih (a + 1) ((s.afterRead a).setOutput (wordEvents service w)
          ((s.afterRead a).acceptsAfter (wordEvents service w).length)) with h | ⟨sent, hs, hw, h1, h2⟩
        · left; rw [h]; simp
        · right
          simp only [State.wordRead_setOutput] at hs hw
          refine ⟨wordEvents service w ++ sent, ?_, ?_, ?_, ?_⟩
          · rw [List.range_succ_eq_map, List.flatMap_cons, List.flatMap_map, hs, ← hw0]
            simp only [Nat.succ_eq_add_one, State.wordRead_succ, State.wordRead_zero]
          · intro k hk
            cases k with
            | zero => rwa [State.wordRead_zero, hw0]
            | succ k => rw [State.wordRead_succ]; exact hw k (by omega)
          · rw [List.length_append, ← State.acceptsAll_congr (State.afterRead_accepts s a),
              State.acceptsAll_add (s.afterRead a) (wordEvents service w)]
            exact ⟨ha, h1⟩
          · have := wordEvents_length service w
            rw [List.length_append]; omega
      · left; rw [e]; simp

/-- Among the words of a whole pass is KBSR. -/
theorem exists_offset (a target : Word) : ∃ j < 65536, a + BitVec.ofNat 16 j = target :=
  ⟨(target - a).toNat, (target - a).isLt, by
    rw [BitVec.ofNat_toNat, BitVec.setWidth_eq]
    exact add_sub_cancel a target⟩

/-- A whole pass with no zero word got a byte at KBSR. -/
theorem State.pass_byte {s : State} {a : Word} {n : Nat} (hn : n = 65536) (hw : ∀ k < n, s.wordRead a k ≠ 0) :
    ∃ b, s.nextAnswer = .byte b := by
  by_contra h
  have hb : ∀ b, s.nextAnswer ≠ .byte b := fun b hb => h ⟨b, hb⟩
  obtain ⟨j, hj, e⟩ := exists_offset a s.params.kbsrAddr
  apply hw j (by omega)
  rw [State.wordRead, State.memRead_value, ← State.afterReads_succ, State.afterReads_kbsr (j := j) (by omega) (by omega)
    e, e, State.poll_none hb, State.memWrite_mem, Memory.readWord_writeWord_self]

end Sys2Proof.Machine
end

