-- ==== Sys2Proof/Tests/Slice0.lean ====
section
/-! SUPPORT. Tests. Expected results come from the worked examples and derived vectors of spec/95_test_vectors.md (S, O,
C, L, T, X) and from the formats R76 to R86; each `witness_` theorem shows that the hypotheses of the obligation it is
named after can be met. -/

namespace Sys2Proof.Machine

/-- The state whose host answers these first. -/
def State.answering (s : State) (answers : List HostAnswer) : State := { s with input := answers }

end Sys2Proof.Machine

namespace Sys2Proof.Tests

open Sys2Proof.Machine

/-- The defaults of R8 with a one-byte prompt in place of the open one. -/
def params : Params := { defaultParams with inPrompt := [0x3F] }

/-- Reset, then the fetch and increment of an instruction at 0x3000, on a host that accepts all output. -/
def base : State := ((State.resetFor params).setPc 0x3001).setOutput [] none

/-- `base` under the other values of the two-valued parameters. -/
def unwritten : State := (State.resetFor { params with gprResetMode := .unwritten }).setPc 0x3001
def unwrittenTargetFirst : State :=
  (State.resetFor { params with gprResetMode := .unwritten, jsrrLinkOrder := .targetFirst }).setPc 0x3001
def targetFirst : State := (State.resetFor { params with jsrrLinkOrder := .targetFirst }).setPc 0x3001

/-- A field of the next state, if there is one. -/
def after {α : Type} (r : Result) (f : State → α) : Option α :=
  match r with
  | .next t => some (f t)
  | .fault _ => none
  | .refused _ => none

/-! Well-formedness: the one check refuses each service code's end and takes their neighbours. -/

theorem test_service_codes_are_ill_formed :
    (Instr.trapUnknown 0x20).WellFormed = false ∧ (Instr.trapUnknown 0x25).WellFormed = false := by decide

theorem test_other_codes_are_well_formed :
    (Instr.trapUnknown 0x1F).WellFormed = true ∧ (Instr.trapUnknown 0x26).WellFormed = true := by decide

/-! Decoding: a word written out from its format for every constructor, and ignored bits (O7, O14, T12). -/

theorem test_decode_operate :
    decode 0b0001_000_001_0_00_010 = .addReg 0 1 2 ∧ decode 0b0001_000_001_0_11_010 = .addReg 0 1 2 ∧
    decode 0b0001_001_001_1_11111 = .addImm 1 1 0x1F ∧ decode 0b0101_010_001_0_00_100 = .andReg 2 1 4 ∧
    decode 0b0101_000_000_1_00000 = .andImm 0 0 0 ∧ decode 0b1001_001_010_000000 = .not 1 2 := by decide

theorem test_decode_control :
    decode 0b0000_1_0_0_000000100 = .br true false false 4 ∧ decode 0b1100_000_010_000000 = .jmp 2 ∧
    decode 0b0100_1_10000000000 = .jsr 0x400 ∧ decode 0b0100_0_11_111_111111 = .jsrr 7 := by decide

theorem test_decode_load_store :
    decode 0b0010_001_100000000 = .ld 1 0x100 ∧ decode 0b1010_000_000000000 = .ldi 0 0 ∧
    decode 0b0110_001_010_100000 = .ldr 1 2 0x20 ∧ decode 0b1110_011_111111111 = .lea 3 0x1FF ∧
    decode 0b0011_001_111111111 = .st 1 0x1FF ∧ decode 0b1011_001_000000000 = .sti 1 0 ∧
    decode 0b0111_001_001_000000 = .str 1 1 0 := by decide

theorem test_decode_trap :
    decode 0b1111_0000_00100000 = .trapGetc ∧ decode 0b1111_0000_00100001 = .trapOut ∧
    decode 0b1111_0000_00100010 = .trapPuts ∧ decode 0b1111_0000_00100011 = .trapIn ∧
    decode 0b1111_0000_00100100 = .trapPutsp ∧ decode 0b1111_1111_00100101 = .trapHalt ∧
    decode 0b1111_0000_00011111 = .trapUnknown 0x1F := by decide

theorem test_decode_reserved :
    decode 0b1000_111111111111 = .rti ∧ decode 0b1101_111111111111 = .res := by decide

/-- S4, S5, S8 give these words for these instructions. -/
theorem test_encode_examples :
    encode (.addImm 0 1 3) = 0x1063 ∧ encode (.andReg 2 1 4) = 0x5444 ∧ encode (.jsr 1) = 0x4801 ∧
    encode .trapHalt = 0xF025 := by decide

/-- The host's view: a whole row word decodes; a bit above the sixteen of R70 names nothing. -/
theorem test_decode_table_word :
    decodeTableWord 16 0x1020 = some (.addImm 0 0 0) ∧ decodeTableWord 16 0x10000 = none := by decide

/-- S1. -/
theorem test_sext_boundary : sext (0b10000 : BitVec 5) = 0xFFF0 := by decide

/-! One step on a small state, per instruction. -/

/-- S4 through the whole step: fetch, increment, decode, execute. -/
theorem test_step_add_immediate :
    after (step ((((State.resetFor params).setReg 1 5).withFetchWord 16 0x1063))) (fun t => (t.reg 0, t.cond, t.pc)) =
      some (8, .p, 0x3001) := by decide

/-- O1, O6. -/
theorem test_add_register_overflows :
    after (exec (.addReg 0 1 2) ((base.setReg 1 0x7FFF).setReg 2 1)) (fun t => (t.reg 0, t.cond)) = some (0x8000, .n) := by
  decide
theorem test_add_register_same :
    after (exec (.addReg 1 1 1) (base.setReg 1 0x4000)) (fun t => (t.reg 1, t.cond)) = some (0x8000, .n) := by decide

/-- O4. -/
theorem test_add_immediate_negative :
    after (exec (.addImm 2 3 0b10000) (base.setReg 3 0x10)) (fun t => (t.reg 2, t.cond)) = some (0, .z) := by decide

/-- O11, O10. -/
theorem test_and_register :
    after (exec (.andReg 0 1 2) ((base.setReg 1 0xF0F0).setReg 2 0x0F0F)) (fun t => (t.reg 0, t.cond)) = some (0, .z) := by
  decide
theorem test_and_immediate_sign_extends :
    after (exec (.andImm 0 1 0b10000) (base.setReg 1 0xFF)) (fun t => (t.reg 0, t.cond)) = some (0xF0, .p) := by decide

/-- S6. -/
theorem test_not :
    after (exec (.not 4 3) (base.setReg 3 0x31)) (fun t => (t.reg 4, t.cond)) = some (0xFFCE, .n) := by decide

/-- C7, C8: overlap, not equality. -/
theorem test_br_overlap :
    after (exec (.br false true true 4) (base.setCC 1)) (fun t => (t.pc, t.cond)) = some (0x3005, .p) := by decide
theorem test_br_not_taken :
    after (exec (.br true false true 4) (base.setCC 0)) (fun t => (t.pc, t.cond)) = some (0x3001, .z) := by decide

/-- C15. -/
theorem test_ret : after (exec (.jmp 7) (base.setReg 7 0x3003)) (·.pc) = some 0x3003 := by decide

/-- C17. -/
theorem test_jsr_wraps :
    after (exec (.jsr 0x3FF) (base.setPc 0xFF01)) (fun t => (t.reg 7, t.pc)) = some (0xFF01, 0x0300) := by decide

/-- C18, C19. -/
theorem test_jsrr_link_first :
    after (exec (.jsrr 7) (base.setReg 7 0x5000)) (fun t => (t.reg 7, t.pc)) = some (0x3001, 0x3001) := by decide
theorem test_jsrr_target_first :
    after (exec (.jsrr 7) (targetFirst.setReg 7 0x5000)) (fun t => (t.reg 7, t.pc)) = some (0x3001, 0x5000) := by decide

/-- L1. -/
theorem test_ld :
    after (exec (.ld 1 0x100) (base.memWrite 0x2F01 0x8000)) (fun t => (t.reg 1, t.cond)) = some (0x8000, .n) := by decide

/-- S7. -/
theorem test_ldi :
    after (exec (.ldi 6 5) (((base.setPc 0x3006).memWrite 0x300B 0x4000).memWrite 0x4000 0x1234))
      (fun t => (t.reg 6, t.cond)) = some (0x1234, .p) := by decide

/-- L3, L13. -/
theorem test_ldr_wraps :
    after (exec (.ldr 1 2 1) ((base.setReg 2 0xFFFF).memWrite 0 0x42)) (fun t => (t.reg 1, t.cond)) = some (0x42, .p) := by
  decide
theorem test_ldr_polls :
    after (exec (.ldr 1 2 0) ((base.setReg 2 0xFE00).answering [.byte 0x61]))
      (fun t => (t.reg 1, t.cond, t.mem.readWord 0xFE02, t.input)) = some (0x8000, .n, 0x61, []) := by decide

/-- L6. -/
theorem test_lea :
    after (exec (.lea 3 0x1FF) (base.setPc 0x0001)) (fun t => (t.reg 3, t.cond)) = some (0, .z) := by decide

/-- L9. -/
theorem test_st :
    after (exec (.st 1 0x1FF) ((base.setReg 1 0xABCD).setCC 1)) (fun t => (t.mem.readWord 0x3000, t.cond)) =
      some (0xABCD, .p) := by decide

/-- L11. -/
theorem test_sti :
    after (exec (.sti 1 0) ((base.setReg 1 0x5555).memWrite 0x3001 0x3001)) (fun t => t.mem.readWord 0x3001) =
      some 0x5555 := by decide

/-- L10. -/
theorem test_str :
    after (exec (.str 1 1 0) (base.setReg 1 0x4000)) (fun t => t.mem.readWord 0x4000) = some 0x4000 := by decide

/-- T1, T3. -/
theorem test_getc :
    after (exec .trapGetc ((base.answering [.byte 0x41]).setCC 0x8000)) (fun t => (t.reg 0, t.reg 7, t.cond, t.output)) =
      some (0x41, 0x3001, .p, []) := by decide
theorem test_getc_end_of_input :
    after (exec .trapGetc (base.answering [.failed])) (fun t => (t.run, t.reg 7)) = some (.fatal .ioFailure, 0x3001) := by
  decide

/-- T4. -/
theorem test_out :
    after (exec .trapOut (base.setReg 0 0xFF41)) (fun t => (t.output, t.reg 0, t.cond, t.reg 7)) =
      some ([.byte 0x41], 0xFF41, .z, 0x3001) := by decide

/-- The string that is KBSR, and the zero word after it. -/
def throughKbsr : State := (base.setReg 0 0xFE00).answering [.byte 0x61]

/-- T5, T7; R48 for the string through KBSR. -/
theorem test_puts :
    after (exec .trapPuts (((base.setReg 0 0x4000).memWrite 0x4000 0x41).memWrite 0x4001 0x0142)) (·.output) =
      some [.byte 0x41, .byte 0x42, .flush] := by decide +kernel
theorem test_puts_wraps_and_polls :
    after (exec .trapPuts ((base.setReg 0 0xFFFF).memWrite 0xFFFF 0x43)) (·.output) = some [.byte 0x43, .flush] ∧
    after (exec .trapPuts throughKbsr) (fun t => (t.output, t.mem.readWord 0xFE02, t.input)) =
      some ([.byte 0x00, .flush], 0x61, []) := by decide +kernel

/-- T10. -/
theorem test_in :
    after (exec .trapIn (base.answering [.byte 0x37])) (fun t => (t.output, t.reg 0, t.cond)) =
      some ([.byte 0x3F, .flush, .byte 0x37, .flush], 0x37, .p) := by decide

/-- T8, T9; R204 for the refused byte. -/
theorem test_putsp :
    after (exec .trapPutsp (((base.setReg 0 0x4000).memWrite 0x4000 0x6548).memWrite 0x4001 0x006C)) (·.output) =
      some [.byte 0x48, .byte 0x65, .byte 0x6C, .flush] := by decide +kernel
theorem test_putsp_zero_low_byte_and_refused_high_byte :
    after (exec .trapPutsp ((base.setReg 0 0x4000).memWrite 0x4000 0x4100)) (·.output) =
      some [.byte 0x00, .byte 0x41, .flush] ∧
    after (exec .trapPutsp (((base.setReg 0 0x4000).memWrite 0x4000 0x6548).setOutput [] (some 1)))
      (fun t => (t.run, t.output)) = some (.fatal .ioFailure, [.byte 0x48]) := by decide +kernel

/-- T11. -/
theorem test_halt :
    after (exec .trapHalt base) (fun t => (t.run, t.output, t.reg 7, t.pc)) = some (.halted, [.flush], 0x3001, 0x3001) := by
  decide

/-- T13. -/
theorem test_unknown_trap :
    after (exec (.trapUnknown 0x26) base) (fun t => (t.run, t.reg 7)) = some (.fatal (.unknownTrap 0x26), 0x3001) := by
  decide

/-- T16, T17 through the whole step. -/
theorem test_step_rti :
    after (step ((State.resetFor params).withFetchWord 16 0x8000)) (fun t => (t.run, t.pc)) =
      some (.fatal (.illegalOpcode .rti), 0x3001) := by decide
theorem test_step_res :
    after (step ((State.resetFor params).withFetchWord 16 0xDFFF)) (fun t => (t.run, t.pc)) =
      some (.fatal (.illegalOpcode .res), 0x3001) := by decide

/-- X1's last step: the fetch at 0xFFFF. -/
theorem test_step_ceiling :
    after (step (base.setPc 0xFFFF)) (fun t => (t.run, t.pc)) = some (.fatal .pcCeiling, 0xFFFF) := by decide

/-- X2: the fetch from KBSR polls, and reads RTI. -/
theorem test_step_fetch_from_kbsr :
    after (step ((base.setPc 0xFE00).answering [.byte 0x61])) (fun t => (t.run, t.pc, t.mem.readWord 0xFE02)) =
      some (.fatal (.illegalOpcode .rti), 0xFE01, 0x61) := by decide

/-- L16: a store into the next instruction is what the next step executes. -/
theorem test_store_then_fetch :
    after (exec (.st 1 0) (base.setReg 1 0xF025)) (fun t => after (step t) (·.run)) = some (some .halted) := by decide

/-- X4, X5, X6. -/
theorem test_load_image : loadImage [0x30, 0x00, 0xF0, 0x25] = .ok (Memory.writeWord [] 0x3000 0xF025) := by decide
theorem test_load_odd_image : loadImage [0x30, 0x00, 0xF0] = .error .truncatedWord := by decide

/-! Witnesses. -/

theorem witness_DecodeOfEncode : (Instr.trapUnknown 0x26).WellFormed = true ∧ (Instr.addReg 7 0 7).WellFormed = true := by
  decide

theorem witness_IgnoredBitsDoNotDecode :
    (0x105A : Word) &&& ~~~(decode 0x1042).ignoredBits = 0x1042 &&& ~~~(decode 0x1042).ignoredBits := by decide

theorem witness_SetCCFollowsTheValue :
    ((0x8000 : Word) ≠ 0x0000 ∧ (0x8000 : Word).msb = true) ∧ ((1 : Word) ≠ 0x0000 ∧ (1 : Word).msb = false) := by decide

theorem witness_OnlyFlagWritersChangeCond :
    exec (.jsr 1) base = .next (base.link.setPc 0x3002) ∧ (Instr.jsr 1).writesCond = false := ⟨rfl, rfl⟩

theorem witness_FlagWritersSetCondFromTheDestination :
    exec (.lea 2 7) base = .next (base.setDest 2 0x3008) ∧ (Instr.lea 2 7).writesCond = true ∧
      (Instr.lea 2 7).destRegs = 2 :: [] ∧ (base.setDest 2 0x3008).run = .running ∧
      (base.setDest 2 0x3008).hold = none := ⟨rfl, rfl, rfl, rfl, rfl⟩

theorem witness_StepRunsTheDecodedInstruction :
    base.run = .running ∧ base.hold = none ∧ base.pc ≠ 0xFFFF ∧ base.pc ≠ base.params.kbsrAddr ∧
      decode (base.mem.readWord base.pc) = .br false false false 0 := by decide

/-- The clause without the premise on KBSR, at KBSR itself. -/
theorem witness_StepRunsTheDecodedInstruction_at_kbsr :
    (base.setPc 0xFE00).run = .running ∧ (base.setPc 0xFE00).hold = none ∧ (base.setPc 0xFE00).pc ≠ 0xFFFF := by decide

theorem witness_StepAtTheCeilingStops :
    (base.setPc 0xFFFF).run = .running ∧ (base.setPc 0xFFFF).hold = none ∧ (base.setPc 0xFFFF).pc = 0xFFFF ∧
      (base.setPc 0xFFFF).params.kbsrAddr ≠ 0xFFFF := by decide

theorem witness_NoStepAfterTheEnd :
    base.halt.run = .halted ∧ (base.stop .ioFailure).run = .fatal .ioFailure ∧
      step base = .next (base.setPc 0x3002) := ⟨rfl, rfl, rfl⟩

theorem witness_StoreIsSeenByTheNextFetch :
    base.readable 1 = true ∧ base.run = .running ∧ base.hold = none ∧ base.pc ≠ 0xFFFF ∧
      base.pc ≠ base.params.kbsrAddr := by decide

/-- The premise of the operate, jump, load and store statements, for every register. -/
theorem witness_readable_registers : ∀ r : Reg, base.readable r = true := by decide
theorem witness_AddRegisterForm : base.readable 3 = true ∧ base.readable 4 = true := by decide
theorem witness_AddImmediateForm : base.readable 1 = true := by decide
theorem witness_AndRegisterForm : base.readable 1 = true ∧ base.readable 4 = true := by decide
theorem witness_AndImmediateForm : base.readable 0 = true := by decide
theorem witness_NotComplements : base.readable 3 = true := by decide
theorem witness_JumpToBase : base.readable 6 = true := by decide

/-- The premise, and that of each clause with one of its own. -/
theorem witness_UnwrittenRegisterStops :
    unwritten.readable 5 = false ∧ (unwritten.setReg 1 0).readable 5 = false ∧
      (unwritten.setReg 1 0).readable 1 = true ∧ unwritten.params.jsrrLinkOrder = .linkFirst ∧ (5 : Reg) ≠ 7 ∧
      unwrittenTargetFirst.readable 7 = false ∧ unwrittenTargetFirst.params.jsrrLinkOrder = .targetFirst ∧
      unwritten.readable 0 = false := by decide

theorem witness_BranchOnOverlap :
    (true = true ∧ (base.setCC 0x8000).cond = .n) ∧ (true = true ∧ base.cond = .z) ∧
      (true = true ∧ (base.setCC 1).cond = .p) ∧
      ¬((true = true ∧ base.cond = .n) ∨ (false = true ∧ base.cond = .z) ∨ (true = true ∧ base.cond = .p)) := by decide

/-- Both ways to meet the premise, and both clauses of the target. -/
theorem witness_JsrrLinksAndJumps :
    (unwritten.params.jsrrLinkOrder = .linkFirst ∧ (7 : Reg) = 7) ∧ base.readable 3 = true ∧
      ¬(base.params.jsrrLinkOrder = .linkFirst ∧ (3 : Reg) = 7) ∧
      ¬(targetFirst.params.jsrrLinkOrder = .linkFirst ∧ (7 : Reg) = 7) ∧ targetFirst.readable 7 = true := by decide

theorem witness_PlainReadChangesNothing : (0xFE02 : Word) ≠ base.params.kbsrAddr ∧ (0xFDFF : Word) ≠ base.params.kbsrAddr := by
  decide

theorem witness_KbsrReadPolls_byte :
    base.params.wf ∧ (base.answering [.byte 0x61]).memRead 0xFE00 =
      (0x8000, ((base.answering []).memWrite 0xFE00 0x8000).memWrite 0xFE02 0x61) ∧
      (base.answering [.byte 0x61]).nextAnswer = .byte 0x61 := by decide

theorem answering_nothing (s : State) (b : Byte) : (s.answering [.nothing]).nextAnswer ≠ .byte b := by
  rw [State.nextAnswer_cons (s := s.answering _) rfl]
  exact nofun

theorem witness_KbsrReadPolls_nothing :
    (base.answering [.nothing]).memRead 0xFE00 = (0x0000, base) ∧
      (∀ b, (base.answering [.nothing]).nextAnswer ≠ .byte b) ∧ (0x3000 : Word) ≠ base.params.kbsrAddr ∧
      (0x3000 : Word) ≠ base.params.kbdrAddr :=
  ⟨by decide, answering_nothing base, by decide, by decide⟩

theorem witness_LoadPcRelative : base.pc + (0 : BitVec 9).signExtend 16 ≠ base.params.kbsrAddr := by decide

theorem witness_LoadIndirect :
    base.memRead (base.pc + (0 : BitVec 9).signExtend 16) = (0x0000, base) ∧
      base.pc + (0 : BitVec 9).signExtend 16 ≠ base.params.kbsrAddr ∧
      base.mem.readWord (base.pc + (0 : BitVec 9).signExtend 16) ≠ base.params.kbsrAddr := by decide

theorem witness_LoadBaseOffset :
    base.readable 2 = true ∧ base.reg 2 + (0x3F : BitVec 6).signExtend 16 ≠ base.params.kbsrAddr := by decide

theorem witness_StorePcRelative : base.readable 1 = true := by decide

theorem witness_StoreIndirect :
    base.readable 1 = true ∧ base.memRead (base.pc + (0 : BitVec 9).signExtend 16) = (0x0000, base) ∧
      base.pc + (0 : BitVec 9).signExtend 16 ≠ base.params.kbsrAddr := by decide

theorem witness_StoreBaseOffset : base.readable 5 = true ∧ base.readable 2 = true := by decide

theorem witness_GetcReadsAByte : (base.answering [.byte 0x41]).nextAnswer = .byte 0x41 := by decide

theorem witness_OutWritesTheLowByte : base.readable 0 = true ∧ base.acceptsAll 1 = true := by decide

/-- A string of two words, and the premise at a host that accepts exactly what it sends. -/
def greeting : State :=
  ((((base.setReg 0 0x4000).memWrite 0x4000 0x48).memWrite 0x4001 0x69)).setOutput [] (some 3)

theorem witness_PutsWritesTheString :
    greeting.readable 0 = true ∧ 2 < 65536 ∧ (∀ k < 2, greeting.wordRead (greeting.reg 0) k ≠ 0x0000) ∧
      greeting.wordRead (greeting.reg 0) 2 = 0x0000 ∧ greeting.acceptsAll (2 + 1) = true ∧
      (∀ k ≤ 2, greeting.reg 0 + BitVec.ofNat 16 k ≠ greeting.params.kbsrAddr) := by decide

theorem witness_PutsWritesTheString_through_kbsr :
    throughKbsr.readable 0 = true ∧ 1 < 65536 ∧ (∀ k < 1, throughKbsr.wordRead (throughKbsr.reg 0) k ≠ 0x0000) ∧
      throughKbsr.wordRead (throughKbsr.reg 0) 1 = 0x0000 ∧ throughKbsr.acceptsAll (1 + 1) = true ∧
      throughKbsr.params.wf ∧ throughKbsr.reg 0 + BitVec.ofNat 16 0 = throughKbsr.params.kbsrAddr := by decide

/-- The empty string at KBSR, where the host has no byte. -/
theorem witness_PutsWritesTheString_at_kbsr :
    ((base.setReg 0 0xFE00).answering [.nothing]).readable 0 = true ∧
      ((base.setReg 0 0xFE00).answering [.nothing]).wordRead ((base.setReg 0 0xFE00).reg 0) 0 = 0x0000 ∧
      ((base.setReg 0 0xFE00).answering [.nothing]).acceptsAll (0 + 1) = true ∧
      (base.setReg 0 0xFE00).reg 0 + BitVec.ofNat 16 0 = base.params.kbsrAddr := by decide

/-- PUTS on a host that refuses the second byte, and on one that refuses the flush. -/
theorem witness_StringFailureKeepsWhatWasWritten_puts :
    (greeting.setOutput [] (some 1)).readable 0 = true ∧ 1 < 65536 ∧ (greeting.setOutput [] (some 1)).accepts = some 1 ∧
      (∀ j < 1, (greeting.setOutput [] (some 1)).wordRead (greeting.reg 0) j ≠ 0x0000) ∧
      (greeting.setOutput [] (some 2)).accepts = some 2 ∧
      (∀ j < 2, (greeting.setOutput [] (some 2)).wordRead (greeting.reg 0) j ≠ 0x0000) := by decide

/-- PUTSP on a host that refuses the flush. -/
theorem witness_StringFailureKeepsWhatWasWritten_putsp :
    (greeting.setOutput [] (some 2)).readable 0 = true ∧ 2 < 65536 ∧ (greeting.setOutput [] (some 2)).accepts = some 2 ∧
      (∀ j < 2, (greeting.setOutput [] (some 2)).wordRead (greeting.reg 0) j ≠ 0x0000) ∧
      [OutEvent.byte 0x48, .byte 0x69] = (List.range 2).flatMap (fun j =>
        let w := (greeting.setOutput [] (some 2)).wordRead (greeting.reg 0) j
        if w >>> 8 = 0x0000 then [.byte (w.setWidth 8)] else [.byte (w.setWidth 8), .byte ((w >>> 8).setWidth 8)]) ∧
      [OutEvent.flush] = (let w := (greeting.setOutput [] (some 2)).wordRead (greeting.reg 0) 2
        if w = 0x0000 then [.flush] else if w >>> 8 = 0x0000 then [.byte (w.setWidth 8)]
        else [.byte (w.setWidth 8), .byte ((w >>> 8).setWidth 8)]) ∧
      [OutEvent.byte 0x48, .byte 0x69].length ≤ 2 ∧
      2 < [OutEvent.byte 0x48, .byte 0x69].length + [OutEvent.flush].length := by decide

theorem witness_InPromptsReadsAndEchoes :
    (base.answering [.byte 0x37]).nextAnswer = .byte 0x37 ∧
      (base.answering [.byte 0x37]).acceptsAll ((base.answering [.byte 0x37]).params.inPrompt.length + 3) = true := by
  decide

theorem witness_PutspWritesTheString :
    greeting.readable 0 = true ∧ 2 < 65536 ∧ (∀ k < 2, greeting.wordRead (greeting.reg 0) k ≠ 0x0000) ∧
      greeting.wordRead (greeting.reg 0) 2 = 0x0000 ∧
      [OutEvent.byte 0x48, .byte 0x69] = (List.range 2).flatMap (fun k =>
        let w := greeting.wordRead (greeting.reg 0) k
        if w >>> 8 = 0x0000 then [.byte (w.setWidth 8)] else [.byte (w.setWidth 8), .byte ((w >>> 8).setWidth 8)]) ∧
      greeting.acceptsAll ([OutEvent.byte 0x48, .byte 0x69].length + 1) = true ∧
      (∀ k ≤ 2, greeting.reg 0 + BitVec.ofNat 16 k ≠ greeting.params.kbsrAddr) := by decide

/-- The string that is KBSR: 0x8000 goes out as two bytes. -/
theorem witness_PutspWritesTheString_through_kbsr :
    [OutEvent.byte 0x00, .byte 0x80] = (List.range 1).flatMap (fun k =>
        let w := throughKbsr.wordRead (throughKbsr.reg 0) k
        if w >>> 8 = 0x0000 then [.byte (w.setWidth 8)] else [.byte (w.setWidth 8), .byte ((w >>> 8).setWidth 8)]) ∧
      throughKbsr.acceptsAll ([OutEvent.byte 0x00, .byte 0x80].length + 1) = true := by decide

theorem witness_HaltFlushesAndHalts : (base.setOutput [] (some 1)).acceptsAll 1 = true := by decide

theorem witness_EndOfInputIsFatal :
    (base.answering [.failed]).nextAnswer = .failed ∧
      (base.answering [.failed]).acceptsAll ((base.answering [.failed]).params.inPrompt.length + 1) = true := by
  decide

/-- The prompt is one byte, so the host refuses OUT's byte, IN's prompt, its echo and its last flush in turn. -/
theorem witness_OutputFailureIsFatal :
    (base.setOutput [] (some 0)).readable 0 = true ∧ (base.setOutput [] (some 0)).accepts = some 0 ∧
      (base.setOutput [] (some 1)).accepts = some 1 ∧ 1 < base.params.inPrompt.length + 1 ∧
      ((base.setOutput [] (some 2)).answering [.byte 0x37]).nextAnswer = .byte 0x37 ∧
      ((base.setOutput [] (some 2)).answering [.byte 0x37]).accepts = some 2 ∧ base.params.inPrompt.length + 1 ≤ 2 ∧
      ((base.setOutput [] (some 3)).answering [.byte 0x37]).accepts = some 3 ∧ 3 < base.params.inPrompt.length + 3 := by
  decide

theorem witness_ServicesWaitForInput :
    (base.answering [.nothing]).nextAnswer = .nothing ∧
      (base.answering [.nothing]).acceptsAll (base.params.inPrompt.length + 1) = true ∧
      ((base.answering [.nothing]).setHold (some .getc)).nextAnswer = .nothing ∧
      ((base.answering [.nothing]).setHold (some .getc)).run = .running ∧
      ((base.answering [.nothing]).setHold (some .inService)).hold = some .inService := by decide

theorem witness_HeldServiceEndsAsOneStep_getc :
    (base.answering [.nothing]).run = .running ∧ (base.answering [.nothing]).hold = none ∧
      (base.link.setHold (some .getc)).hold ≠ none ∧
      exec .trapGetc (base.answering [.nothing]) = .next (base.link.setHold (some .getc)) :=
  ⟨rfl, rfl, by decide, rfl⟩

theorem witness_HeldServiceEndsAsOneStep_in :
    ((base.link.setOutput [.byte 0x3F, .flush] none).setHold (some .inService)).hold ≠ none ∧
      exec .trapIn (base.answering [.nothing]) =
        .next ((base.link.setOutput [.byte 0x3F, .flush] none).setHold (some .inService)) := ⟨by decide, rfl⟩

/-- A link in a core that goes on, and one under a TRAP that stops. -/
theorem witness_DestinationsAndNoOthersAreWritten :
    exec (.jsr 1) unwritten = .next (unwritten.link.setPc 0x3002) ∧ (unwritten.link.setPc 0x3002).run = .running ∧
      (unwritten.link.setPc 0x3002).hold = none ∧ 7 ∈ (Instr.jsr 1).destRegs ∧
      exec (.trapUnknown 0x26) unwritten = .next (unwritten.link.stop (.unknownTrap 0x26)) :=
  ⟨rfl, rfl, rfl, by decide, rfl⟩

theorem witness_OnlyTransfersMovePc :
    exec (.lea 2 7) base = .next (base.setDest 2 0x3008) ∧ (Instr.lea 2 7).writesPc = false := ⟨rfl, rfl⟩

theorem witness_OnlyStoresWriteMemory :
    exec (.lea 2 7) base = .next (base.setDest 2 0x3008) ∧ (Instr.lea 2 7).isStore = false ∧
      (0x3000 : Word) ≠ base.params.kbsrAddr ∧ (0x3000 : Word) ≠ base.params.kbdrAddr := ⟨rfl, rfl, by decide, by decide⟩

/-- One step into each end. -/
theorem witness_EveryEndHasItsCause :
    after (step (base.withFetchWord 16 0xF025)) (·.run) = some .halted ∧
    after (step (base.withFetchWord 16 0x8000)) (·.run) = some (.fatal (.illegalOpcode .rti)) ∧
    after (step (base.withFetchWord 16 0xD000)) (·.run) = some (.fatal (.illegalOpcode .res)) ∧
    after (step (base.withFetchWord 16 0xF0FF)) (·.run) = some (.fatal (.unknownTrap 0xFF)) ∧
    after (step ((base.withFetchWord 16 0xF020).answering [.failed])) (·.run) = some (.fatal .ioFailure) ∧
    after (step ((base.setHold (some .getc)).answering [.failed])) (·.run) = some (.fatal .ioFailure) ∧
    after (step ((base.withFetchWord 16 0xF025).setOutput [] (some 0))) (fun t => (t.run, t.accepts)) =
      some (.fatal .ioFailure, some 0) ∧
    after (step (((base.setHold (some .inService)).answering [.byte 0x37]).setOutput [] (some 1)))
      (fun t => (t.run, t.accepts)) = some (.fatal .ioFailure, some 0) ∧
    after (step (base.setPc 0xFFFF)) (·.run) = some (.fatal .pcCeiling) ∧
    after (step (unwritten.withFetchWord 16 0xC140)) (·.run) = some (.fatal (.unwrittenRegister 5)) := by decide

/-- Each clause of the premise alone, in a running core and in one whose string goes on. -/
theorem witness_StringsEndWhereAPollFindsNothing :
    (∀ b, (base.answering [.nothing]).nextAnswer ≠ .byte b) ∧ (base.answering [.nothing]).hold = none ∧
      (base.setOutput [] (some 5)).accepts = some 5 ∧ 5 < 65536 ∧
      (base.setHold (some (.string .puts 0x4000))).run = .running ∧
      (base.setHold (some (.string .puts 0x4000))).hold = some (.string .puts 0x4000) :=
  ⟨answering_nothing base, rfl, rfl, by decide, rfl, rfl⟩

/-- Memory in which each of the first `n` cells is 1. -/
@[irreducible] def onesMemory (n : Nat) : Memory := (List.range n).map (fun k => (k, 0x01))

theorem onesMemory_cell {n k : Nat} (hk : k < n) : (onesMemory n).readCell k = 0x01 := by
  have find : ∀ (n first : Nat), first ≤ k → k < first + n →
      Memory.readCell ((List.range' first n).map (fun k => (k, (0x01 : Byte)))) k = 0x01 := by
    intro n
    induction n with
    | zero => intro f h1 h2; omega
    | succ n ih =>
      intro f h1 h2
      simp only [List.range'_succ, List.map_cons, Memory.readCell]
      split
      · rfl
      · exact ih (f + 1) (by omega) (by omega)
  rw [onesMemory, List.range_eq_range']
  exact find n 0 (by omega) (by omega)

/-- A whole memory of ones on a host that has a byte. -/
def wholeMemory : State := { base with mem := onesMemory 131072, input := [.byte 0x01] }

theorem wholeMemory_word (c : Word) : wholeMemory.mem.readWord c ≠ 0 := by
  intro h
  have hc := c.isLt
  have ones : (onesMemory 131072).readWord c = (0x01 : Byte) ++ (0x01 : Byte) := by
    rw [Memory.readWord, onesMemory_cell (by omega), onesMemory_cell (by omega)]
  exact absurd (ones.symm.trans h) (by decide)

theorem wholeMemory_poll_word (c : Word) : wholeMemory.poll.mem.readWord c ≠ 0 := by
  rw [State.poll_byte (s := wholeMemory) (b := 0x01) rfl]
  simp only [State.memWrite_mem, Memory.readWord_writeWord]
  repeat' split
  · decide
  · decide
  · exact wholeMemory_word c

theorem wholeMemory_wordRead (a : Word) : ∀ k < 65536, wholeMemory.wordRead a k ≠ 0 := by
  intro k hk
  rw [State.wordRead, State.memRead_value, ← State.afterReads_succ]
  by_cases h : ∃ j < k + 1, a + BitVec.ofNat 16 j = wholeMemory.params.kbsrAddr
  · obtain ⟨j, hj, e⟩ := h
    rw [State.afterReads_kbsr hj (by omega) e]
    exact wholeMemory_poll_word _
  · rw [State.afterReads_plain fun j hj e => h ⟨j, hj, e⟩]
    exact wholeMemory_word _

/-- A loop that reads no zero word holds. -/
theorem scan_holds (service : StringService) {n : Nat} {a : Word} {s : State} (hw : ∀ k < n, s.wordRead a k ≠ 0)
    (ha : s.accepts = none) :
    (State.scan service n a s).hold = some (.string service (a + BitVec.ofNat 16 n)) := by
  have run := State.scan_run service (more := 0) hw rfl (by simp [State.acceptsAll, ha])
  rw [Nat.add_zero] at run
  rw [run, State.scan_end, State.setHold_hold]

/-- A string can hold, for PUTS and for PUTSP. -/
theorem witness_HeldStringGoesOnWithItsLoop (service : StringService) :
    wholeMemory.run = .running ∧ wholeMemory.hold = none ∧
      ∃ t, t.hold = some (.string service (wholeMemory.reg 0)) ∧
        exec (match service with | .puts => .trapPuts | .putsp => .trapPutsp) wholeMemory = .next t := by
  have hr : wholeMemory.link.readable 0 = true := by decide
  have h0 : wholeMemory.link.reg 0 = wholeMemory.reg 0 := by decide
  have hx : exec (match service with | .puts => .trapPuts | .putsp => .trapPutsp) wholeMemory =
      .next (State.scan service 65536 (wholeMemory.reg 0) wholeMemory.link) := by
    cases service <;>
      simp only [exec, execTrapPuts, execTrapPutsp, State.putString, passWords, State.withReg_readable hr, h0]
  refine ⟨rfl, rfl, _, ?_, hx⟩
  rw [scan_holds service (fun k hk => by rw [State.wordRead_link]; exact wholeMemory_wordRead _ k hk) rfl,
    show BitVec.ofNat 16 65536 = 0#16 by decide, BitVec.add_zero]

theorem witness_InvariantIsKept : base.Inv ∧ step base = .next (base.setPc 0x3002) := by
  exact ⟨⟨Memory.wf_nil, by decide, by decide, by decide⟩, rfl⟩

theorem witness_ChannelOrderIsKept : step base = .next (base.setPc 0x3002) := rfl

/-- The last address of memory is loaded; one word more is past the ceiling. -/
theorem witness_LoadedImageLiesAtItsOrigin : (0xFFFF : Word).toNat + [0x1234#16].length ≤ 65536 := by decide

theorem witness_MalformedImagesAreReported :
    ([0x30#8] : List Byte).length < 2 ∧ 2 ≤ ([0x30#8, 0x00, 0xF0] : List Byte).length ∧
      ([0x30#8, 0x00, 0xF0] : List Byte).length % 2 = 1 ∧
      65536 < (0xFFFF : Word).toNat + [0x1234#16, 0x5678#16].length := by decide

end Sys2Proof.Tests
end

/-! PROOFS. The statements of the family 00_scope: the invariant, sign extension and the step. -/

namespace Sys2Proof.Machine

/-! The clauses of the invariant that every operation keeps. -/

/-- A register nothing has written holds its reset value: the last clause of `State.Inv` (R23). -/
def State.UnwrittenReset (s : State) : Prop := ∀ r : Reg, s.written[r] = false → s.reg r = resetGpr

/-- A written register is out of the clause, and the others are as before. -/
theorem State.UnwrittenReset.setReg {s : State} (hs : s.UnwrittenReset) (r : Reg) (v : Word) :
    (s.setReg r v).UnwrittenReset := by
  intro q hq
  by_cases h : q = r
  · simp [h] at hq
  · rw [State.setReg_reg_ne s v h]
    refine hs q ?_
    simpa [Vector.getElem_set, Fin.val_inj, Ne.symm h] using hq

theorem kept_unwrittenReset : Kept State.UnwrittenReset where
  read _ _ hs := by simpa [State.UnwrittenReset] using hs
  write _ _ _ hs := hs
  dest _ r v hs := hs.setReg r v
  link s hs := hs.setReg 7 s.pc
  pc _ _ hs := hs
  out _ _ _ hs := hs
  input _ hs := by simpa [State.UnwrittenReset] using hs
  hold _ _ hs := hs
  stop _ _ hs := hs
  halt _ hs := hs

/-- Memory stays canonical: only reads, by a poll, and writes reach it. -/
theorem kept_mem_wf : Kept fun s => s.mem.wf where
  read s a hs := s.afterRead_mem_wf a hs
  write _ a v hs := State.memWrite_mem_wf hs a v
  dest _ _ _ hs := hs
  link _ hs := hs
  pc _ _ hs := hs
  out _ _ _ hs := hs
  input s hs := s.takeAnswer_mem.symm ▸ hs
  hold _ _ hs := hs
  stop _ _ hs := hs
  halt _ hs := hs

/-- The parameters are fixed (R8). -/
theorem kept_params (p : Params) : Kept fun s => s.params = p where
  read s a hs := (s.afterRead_params a).trans hs
  write _ _ _ hs := hs
  dest _ _ _ hs := hs
  link _ hs := hs
  pc _ _ hs := hs
  out _ _ _ hs := hs
  input s hs := s.takeAnswer_params.trans hs
  hold _ _ hs := hs
  stop _ _ hs := hs
  halt _ hs := hs

/-! The clause on holds. It is no `Kept` predicate: a stop would break it in a state that holds. A meaning starts
without a hold, and marks one only as its last act. -/

/-- Only a running core holds: the third clause of `State.Inv` (R34, R61). -/
def State.HoldRunning (s : State) : Prop := s.hold ≠ none → s.run = .running

/-- A running core that holds for nothing: what a meaning starts from. Every operation but a hold, a stop and the halt
leaves both fields as they are. -/
def State.Idle (s : State) : Prop := s.run = .running ∧ s.hold = none

section
variable {s : State}

theorem State.holdRunning_of_hold_none (h : s.hold = none) : s.HoldRunning := fun hne => absurd h hne

theorem State.Idle.holdRunning (hs : s.Idle) : s.HoldRunning := fun _ => hs.1

theorem State.Idle.stop (hs : s.Idle) (reason : FatalReason) : (s.stop reason).HoldRunning :=
  State.holdRunning_of_hold_none hs.2

theorem State.Idle.halt (hs : s.Idle) : s.halt.HoldRunning := State.holdRunning_of_hold_none hs.2

theorem State.Idle.setHold (hs : s.Idle) (hd : Option Hold) : (s.setHold hd).HoldRunning := fun _ => hs.1

theorem State.Idle.afterRead (hs : s.Idle) (a : Word) : (s.afterRead a).Idle := by
  simpa [State.Idle] using hs

theorem State.Idle.takeAnswer (hs : s.Idle) : s.takeAnswer.Idle := by
  simpa [State.Idle] using hs

theorem State.Idle.withReg (hs : s.Idle) (r : Reg) {next : Word → State} (hn : ∀ v, (next v).HoldRunning) :
    (s.withReg r next).HoldRunning := by
  rcases s.withReg_cases r next with ⟨-, e⟩ | ⟨-, e⟩ <;> rw [e]
  · exact hn _
  · exact hs.stop _

theorem State.Idle.withOutput (hs : s.Idle) (events : List OutEvent) {next : State → State}
    (hn : ∀ u : State, u.Idle → (next u).HoldRunning) : (s.withOutput events next).HoldRunning := by
  rcases s.withOutput_cases events next with ⟨-, e⟩ | ⟨k, -, -, e⟩ <;> rw [e]
  · exact hn _ hs
  · exact State.Idle.stop (s := s.setOutput _ _) hs _

theorem State.Idle.withInput (hs : s.Idle) (hd : Hold) {next : Byte → State → State}
    (hn : ∀ b (u : State), u.Idle → (next b u).HoldRunning) : (s.withInput hd next).HoldRunning := by
  rcases s.withInput_cases hd next with ⟨b, -, e⟩ | ⟨-, e⟩ | ⟨-, e⟩ <;> rw [e]
  · exact hn _ _ hs.takeAnswer
  · exact hs.takeAnswer.setHold _
  · exact hs.takeAnswer.stop _

theorem State.Idle.finishGetc (hs : s.Idle) (b : Byte) : (State.finishGetc b s).HoldRunning := hs.holdRunning

theorem State.Idle.finishIn (hs : s.Idle) (b : Byte) : (State.finishIn b s).HoldRunning :=
  hs.withOutput _ fun _ hu => hu.holdRunning

theorem State.Idle.scan (hs : s.Idle) (service : StringService) (words : Nat) (a : Word) :
    (State.scan service words a s).HoldRunning := by
  induction words generalizing a s with
  | zero => exact hs.setHold _
  | succ n ih =>
    by_cases h : (s.afterRead a).mem.readWord a = 0
    · rw [State.scan_zero h]; exact (hs.afterRead a).withOutput _ fun _ hu => hu.holdRunning
    · rw [State.scan_nonzero h]; exact (hs.afterRead a).withOutput _ fun _ hu => ih hu _

/-- A held service goes on without its hold. -/
theorem State.resume_holdRunning (hrun : s.run = .running) (hd : Hold) : (s.resume hd).HoldRunning := by
  have hs : (s.setHold none).Idle := ⟨hrun, rfl⟩
  cases hd with
  | getc => exact hs.withInput _ fun b _ hu => hu.finishGetc b
  | inService => exact hs.withInput _ fun b _ hu => hu.finishIn b
  | string service next => exact hs.scan service _ next

/-- An instruction holds only where it leaves the core running. -/
theorem exec_holdRunning {i : Instr} {t : State} (h : exec i s = .next t) (hs : s.Idle) : t.HoldRunning := by
  have hl : s.link.Idle := hs
  cases i <;> cases h
  case br => split <;> exact hs.holdRunning
  case addReg | andReg | str => exact hs.withReg _ fun _ => hs.withReg _ fun _ => hs.holdRunning
  case addImm | andImm | not | jmp | st => exact hs.withReg _ fun _ => hs.holdRunning
  case jsr | lea => exact hs.holdRunning
  case jsrr =>
    split
    · exact hl.withReg _ fun _ => hs.holdRunning
    · exact hs.withReg _ fun _ => hs.holdRunning
  case ld => exact (hs.afterRead _).holdRunning
  case ldi => exact ((hs.afterRead _).afterRead _).holdRunning
  case ldr => exact hs.withReg _ fun _ => (hs.afterRead _).holdRunning
  case sti => exact (hs.afterRead _).withReg _ fun _ => (hs.afterRead _).holdRunning
  case rti | res => exact hs.stop _
  case trapGetc => exact hl.withInput _ fun b _ hu => hu.finishGetc b
  case trapOut => exact hl.withReg _ fun _ => hl.withOutput _ fun _ hu => hu.holdRunning
  case trapPuts | trapPutsp => exact hl.withReg _ fun _ => hl.scan _ _ _
  case trapIn => exact hl.withOutput _ fun _ hu => hu.withInput _ fun b _ hv => hv.finishIn b
  case trapHalt => exact hl.withOutput _ fun _ hu => hu.halt
  case trapUnknown => exact hl.stop _

/-- A step answers a hold only in a running core. It needs nothing of the hold it starts from but that the core ran. -/
theorem step_holdRunning {t : State} (h : step s = .next t) : t.HoldRunning := by
  obtain ⟨hrun, ⟨hd, -, rfl⟩ | ⟨hhd, -, rfl⟩ | ⟨hhd, -, h⟩⟩ := step_cases h
  · exact State.resume_holdRunning hrun hd
  · exact State.Idle.stop (State.Idle.afterRead ⟨hrun, hhd⟩ _) _
  · exact exec_holdRunning h (State.Idle.afterRead ⟨hrun, hhd⟩ _)

end

/-- Settles O56: memory, parameters and unwritten registers are kept by each operation, and a step marks a hold only
where the core runs on. -/
theorem invariantIsKept : Obligations.InvariantIsKept := by
  intro s t hs h
  have hp : t.params = s.params := step_keeps (kept_params s.params) h rfl
  exact ⟨step_keeps kept_mem_wf h hs.mem_wf, hp ▸ hs.params_wf, step_holdRunning h,
    step_keeps kept_unwrittenReset h hs.unwritten_reset⟩

/-! Reset. -/

/-- Reset has the invariant under every value of the parameters that R8 admits. -/
theorem State.resetFor_inv {p : Params} (hp : p.wf) : (State.resetFor p).Inv where
  mem_wf := Memory.wf_nil
  params_wf := hp
  hold_running := State.holdRunning_of_hold_none (State.resetFor_hold p)
  unwritten_reset r _ := Vector.getElem_replicate r.isLt

theorem defaultParams_wf : defaultParams.wf := by decide

/-- Settles O2, from the default addresses of the keyboard registers being two. -/
theorem invariantHoldsAtReset : Obligations.InvariantHoldsAtReset := State.resetFor_inv defaultParams_wf

/-! Sign extension. -/

/-- A field no wider than a word keeps its two's complement value. -/
theorem toInt_sext {n : Nat} (hn : n ≤ 16) (v : BitVec n) : (sext v).toInt = v.toInt := by
  rw [sext_eq_signExtend, BitVec.toInt_signExtend_of_le hn]

/-- Settles O8: each width is at most 16, and the boundary case is a closed computation. -/
theorem signExtensionKeepsTheSignedValue : Obligations.SignExtensionKeepsTheSignedValue :=
  ⟨toInt_sext (by decide), toInt_sext (by decide), toInt_sext (by decide), toInt_sext (by decide), by decide⟩

/-! The step. -/

/-- R236: below the ceiling an idle core executes the word that the fetch reads. -/
theorem step_idle {s : State} (hs : s.Idle) (hpc : s.pc ≠ 0xFFFF) :
    step s = exec (decode (s.memRead s.pc).1) ((s.memRead s.pc).2.setPc (s.pc + 1)) := by
  obtain ⟨hrun, hhold⟩ := hs
  simp only [step, hrun, hhold, State.fetch_word hpc, State.memRead_value, State.memRead_state]

/-- Settles O12: the fetch below the ceiling, and a read away from KBSR changes nothing. -/
theorem stepRunsTheDecodedInstruction : Obligations.StepRunsTheDecodedInstruction := by
  intro s hrun hhold hpc
  have hstep := step_idle ⟨hrun, hhold⟩ hpc
  refine ⟨hstep, ?_⟩
  rintro i hkbsr rfl
  rw [hstep, State.memRead_value, State.memRead_state, State.afterRead_ne hkbsr]

end Sys2Proof.Machine

/-! PROOFS. The statements of the family 10_state: what the state keeps, who writes what, and why a run ends. -/

namespace Sys2Proof.Machine

/-! JSRR in its two orders (R124). -/

theorem exec_jsrr_linkFirst {s : State} (h : s.params.jsrrLinkOrder = .linkFirst) (base : Reg) :
    exec (.jsrr base) s = .next (s.link.withReg base fun target => s.link.setPc target) := by
  simp only [exec, execJsrr, h]

theorem exec_jsrr_targetFirst {s : State} (h : s.params.jsrrLinkOrder = .targetFirst) (base : Reg) :
    exec (.jsrr base) s = .next (s.withReg base fun target => s.link.setPc target) := by
  simp only [exec, execJsrr, h]

/-! What a running core that holds for nothing does at the ceiling (R26). -/

theorem step_ceiling {s : State} (hs : s.Idle) (hpc : s.pc = 0xFFFF) :
    step s = .next ((s.afterRead s.pc).stop .pcCeiling) := by
  obtain ⟨hrun, hhold⟩ := hs
  simp only [step, hrun, hhold, State.fetch_ceiling hpc]

/-! The output record is never read: every operation commutes with events put before it. -/

section
variable {s : State} {earlier : List OutEvent}

theorem State.withEarlierOutput_setOutput (s : State) (earlier sent : List OutEvent) (left : Option Nat) :
    (s.withEarlierOutput earlier).setOutput sent left = (s.setOutput sent left).withEarlierOutput earlier := by
  simp [State.withEarlierOutput, State.setOutput]

theorem State.withEarlierOutput_takeAnswer (s : State) (earlier : List OutEvent) :
    (s.withEarlierOutput earlier).takeAnswer = s.takeAnswer.withEarlierOutput earlier := by
  cases h : s.input with
  | nil => rw [s.takeAnswer_nil h, State.takeAnswer_nil _ (show (s.withEarlierOutput earlier).input = [] from h)]; rfl
  | cons answer rest =>
    rw [s.takeAnswer_cons h,
      State.takeAnswer_cons _ (show (s.withEarlierOutput earlier).input = answer :: rest from h)]
    rfl

theorem State.withEarlierOutput_poll (s : State) (earlier : List OutEvent) :
    (s.withEarlierOutput earlier).poll = s.poll.withEarlierOutput earlier := by
  rcases s.poll_cases with ⟨b, hb, e⟩ | ⟨hb, e⟩ <;> rw [e]
  · rw [State.poll_byte (s := s.withEarlierOutput earlier) hb, State.withEarlierOutput_takeAnswer]; rfl
  · rw [State.poll_none (s := s.withEarlierOutput earlier) hb, State.withEarlierOutput_takeAnswer]; rfl

theorem State.withEarlierOutput_afterRead (s : State) (earlier : List OutEvent) (a : Word) :
    (s.withEarlierOutput earlier).afterRead a = (s.afterRead a).withEarlierOutput earlier := by
  rcases s.afterRead_cases a with ⟨h, e⟩ | ⟨h, e⟩ <;> rw [e]
  · exact State.afterRead_ne (s := s.withEarlierOutput earlier) h
  · rw [State.afterRead_kbsr (s := s.withEarlierOutput earlier) h, State.withEarlierOutput_poll]

theorem State.withEarlierOutput_memRead (s : State) (earlier : List OutEvent) (a : Word) :
    (s.withEarlierOutput earlier).memRead a = ((s.memRead a).1, (s.memRead a).2.withEarlierOutput earlier) := by
  rw [State.memRead, State.withEarlierOutput_afterRead]
  rfl

theorem State.withEarlierOutput_loadFrom (s : State) (earlier : List OutEvent) (ea : Word) (dr : Reg) :
    (s.withEarlierOutput earlier).loadFrom ea dr = (s.loadFrom ea dr).withEarlierOutput earlier := by
  rw [State.loadFrom, State.withEarlierOutput_memRead]
  rfl

theorem State.withEarlierOutput_withReg {r : Reg} {next next' : Word → State}
    (hn : ∀ v, next' v = (next v).withEarlierOutput earlier) :
    (s.withEarlierOutput earlier).withReg r next' = (s.withReg r next).withEarlierOutput earlier := by
  rcases s.withReg_cases r next with ⟨hr, e⟩ | ⟨hr, e⟩ <;> rw [e]
  · exact (State.withReg_readable (s := s.withEarlierOutput earlier) hr next').trans (hn _)
  · exact State.withReg_unwritten (s := s.withEarlierOutput earlier) hr next'

theorem State.withEarlierOutput_withOutput {events : List OutEvent} {next : State → State}
    (hn : ∀ u : State, next (u.withEarlierOutput earlier) = (next u).withEarlierOutput earlier) :
    (s.withEarlierOutput earlier).withOutput events next = (s.withOutput events next).withEarlierOutput earlier := by
  rcases s.withOutput_cases events next with ⟨ha, e⟩ | ⟨k, hk, hlt, e⟩ <;> rw [e]
  · rw [State.withOutput_accepted (s := s.withEarlierOutput earlier) ha, State.withEarlierOutput_setOutput, hn]
    rfl
  · rw [State.withOutput_refused (s := s.withEarlierOutput earlier) hk hlt, State.withEarlierOutput_setOutput]
    rfl

theorem State.withEarlierOutput_withInput {hd : Hold} {next : Byte → State → State}
    (hn : ∀ b (u : State), next b (u.withEarlierOutput earlier) = (next b u).withEarlierOutput earlier) :
    (s.withEarlierOutput earlier).withInput hd next = (s.withInput hd next).withEarlierOutput earlier := by
  rcases s.withInput_cases hd next with ⟨b, hb, e⟩ | ⟨hb, e⟩ | ⟨hb, e⟩ <;> rw [e]
  · rw [State.withInput_byte (s := s.withEarlierOutput earlier) hb, State.withEarlierOutput_takeAnswer, hn]
  · rw [State.withInput_nothing (s := s.withEarlierOutput earlier) hb, State.withEarlierOutput_takeAnswer]; rfl
  · rw [State.withInput_failed (s := s.withEarlierOutput earlier) hb, State.withEarlierOutput_takeAnswer]; rfl

theorem State.withEarlierOutput_finishIn (b : Byte) (s : State) :
    State.finishIn b (s.withEarlierOutput earlier) = (State.finishIn b s).withEarlierOutput earlier :=
  State.withEarlierOutput_withOutput fun _ => rfl

theorem State.withEarlierOutput_scan (service : StringService) (words : Nat) (a : Word) (s : State) :
    State.scan service words a (s.withEarlierOutput earlier) =
      (State.scan service words a s).withEarlierOutput earlier := by
  induction words generalizing a s with
  | zero => rfl
  | succ n ih =>
    have hread := s.withEarlierOutput_afterRead earlier a
    have hword : ((s.withEarlierOutput earlier).afterRead a).mem.readWord a = (s.afterRead a).mem.readWord a := by
      rw [hread]; rfl
    by_cases h : (s.afterRead a).mem.readWord a = 0
    · rw [State.scan_zero h, State.scan_zero (hword.trans h), hread]
      exact State.withEarlierOutput_withOutput fun _ => rfl
    · rw [State.scan_nonzero h, State.scan_nonzero (hword.trans_ne h), hword, hread]
      exact State.withEarlierOutput_withOutput fun u => ih (a + 1) u

theorem State.withEarlierOutput_resume (s : State) (earlier : List OutEvent) (hd : Hold) :
    (s.withEarlierOutput earlier).resume hd = (s.resume hd).withEarlierOutput earlier := by
  cases hd with
  | getc => exact State.withEarlierOutput_withInput (s := s.setHold none) fun _ _ => rfl
  | inService => exact State.withEarlierOutput_withInput (s := s.setHold none) State.withEarlierOutput_finishIn
  | string service next => exact State.withEarlierOutput_scan service passWords next (s.setHold none)

/-- Every instruction answers a next state, and the one with events before the output record answers the same with
those events before it. -/
theorem exec_withEarlierOutput (i : Instr) (s : State) (earlier : List OutEvent) :
    ∃ t, exec i s = .next t ∧ exec i (s.withEarlierOutput earlier) = .next (t.withEarlierOutput earlier) := by
  cases i
  case jsrr base =>
    cases horder : s.params.jsrrLinkOrder with
    | linkFirst =>
      rw [exec_jsrr_linkFirst horder, exec_jsrr_linkFirst (s := s.withEarlierOutput earlier) horder]
      exact ⟨_, rfl, congrArg _ (State.withEarlierOutput_withReg (s := s.link) fun _ => rfl)⟩
    | targetFirst =>
      rw [exec_jsrr_targetFirst horder, exec_jsrr_targetFirst (s := s.withEarlierOutput earlier) horder]
      exact ⟨_, rfl, congrArg _ (State.withEarlierOutput_withReg fun _ => rfl)⟩
  all_goals refine ⟨_, rfl, congrArg Host.Outcome.next ?_⟩
  case br n z p off =>
    show (if branchTaken n z p s.cond then _ else _) = _
    split <;> rfl
  case addReg | andReg =>
    exact State.withEarlierOutput_withReg fun _ => State.withEarlierOutput_withReg fun _ => rfl
  case addImm | andImm | not | jmp | st => exact State.withEarlierOutput_withReg fun _ => rfl
  case ld => exact State.withEarlierOutput_loadFrom _ _ _ _
  case jsr | rti | res | lea | trapUnknown => rfl
  case ldr => exact State.withEarlierOutput_withReg fun _ => State.withEarlierOutput_loadFrom _ _ _ _
  case str => exact State.withEarlierOutput_withReg fun _ => State.withEarlierOutput_withReg fun _ => rfl
  case ldi =>
    rw [State.withEarlierOutput_memRead]
    exact State.withEarlierOutput_loadFrom _ _ _ _
  case sti =>
    rw [State.withEarlierOutput_memRead]
    exact State.withEarlierOutput_withReg fun _ => rfl
  case trapGetc => exact State.withEarlierOutput_withInput (s := s.link) fun _ _ => rfl
  case trapOut =>
    exact State.withEarlierOutput_withReg (s := s.link) fun _ =>
      State.withEarlierOutput_withOutput (s := s.link) fun _ => rfl
  case trapPuts | trapPutsp =>
    exact State.withEarlierOutput_withReg (s := s.link) fun _ => State.withEarlierOutput_scan _ _ _ s.link
  case trapIn =>
    exact State.withEarlierOutput_withOutput (s := s.link) fun _ =>
      State.withEarlierOutput_withInput State.withEarlierOutput_finishIn
  case trapHalt => exact State.withEarlierOutput_withOutput (s := s.link) fun _ => rfl

end

/-- Settles O58: a held service, the ceiling and the fetched instruction each commute with events put before the
output record. -/
theorem outputIsNeverReadBack : Obligations.OutputIsNeverReadBack := by
  intro s earlier
  cases hrun : s.run with
  | halted => simp only [step, hrun, show (s.withEarlierOutput earlier).run = .halted from hrun]
  | fatal reason => simp only [step, hrun, show (s.withEarlierOutput earlier).run = .fatal reason from hrun]
  | running =>
    cases hhold : s.hold with
    | some hd =>
      rw [step_held hrun hhold, step_held (s := s.withEarlierOutput earlier) hrun hhold,
        State.withEarlierOutput_resume]
    | none =>
      have hs : s.Idle := ⟨hrun, hhold⟩
      by_cases hpc : s.pc = 0xFFFF
      · rw [step_ceiling hs hpc, step_ceiling (s := s.withEarlierOutput earlier) hs hpc]
        rw [show (s.withEarlierOutput earlier).pc = s.pc from rfl, State.withEarlierOutput_afterRead]
        rfl
      · obtain ⟨t, ht, hte⟩ :=
          exec_withEarlierOutput (decode (s.memRead s.pc).1) ((s.memRead s.pc).2.setPc (s.pc + 1)) earlier
        rw [step_idle hs hpc, ht, step_idle (s := s.withEarlierOutput earlier) hs hpc,
          State.withEarlierOutput_memRead]
        exact hte

/-! Writers. What an instruction may write is read off its lists `writesCond`, `writesPc`, `isStore` and `destRegs`. -/

/-- `P` is kept by each operation that the instruction `i` may use: `Kept` where a store, a write of COND, of PC or of
the link is asked about only if `i` is such a writer. -/
structure KeptBy (i : Instr) (P : State → Prop) : Prop where
  read : ∀ u a, P u → P (u.afterRead a)
  out : ∀ u sent left, P u → P (u.setOutput sent left)
  input : ∀ u : State, P u → P u.takeAnswer
  hold : ∀ u hd, P u → P (u.setHold hd)
  stop : ∀ u reason, P u → P (u.stop reason)
  halt : ∀ u : State, P u → P u.halt
  write : i.isStore = true → ∀ u a v, P u → P (u.memWrite a v)
  dest : ∀ r, i.writesCond = true → i.destRegs.head? = some r → ∀ u v, P u → P (u.setDest r v)
  link : 7 ∈ i.destRegs → ∀ u, P u → P u.link
  pc : i.writesPc = true → ∀ u v, P u → P (u.setPc v)

section
variable {i : Instr} {P : State → Prop} (K : KeptBy i P) {s t : State}
include K

theorem KeptBy.withReg (hs : P s) (r : Reg) {next : Word → State} (hn : ∀ v, P (next v)) :
    P (s.withReg r next) := by
  rcases s.withReg_cases r next with ⟨-, e⟩ | ⟨-, e⟩ <;> rw [e]
  · exact hn _
  · exact K.stop _ _ hs

theorem KeptBy.withOutput (hs : P s) (events : List OutEvent) {next : State → State}
    (hn : ∀ u, P u → P (next u)) : P (s.withOutput events next) := by
  rcases s.withOutput_cases events next with ⟨-, e⟩ | ⟨k, -, -, e⟩ <;> rw [e]
  · exact hn _ (K.out _ _ _ hs)
  · exact K.stop _ _ (K.out _ _ _ hs)

theorem KeptBy.withInput (hs : P s) (hd : Hold) {next : Byte → State → State} (hn : ∀ b u, P u → P (next b u)) :
    P (s.withInput hd next) := by
  rcases s.withInput_cases hd next with ⟨b, -, e⟩ | ⟨-, e⟩ | ⟨-, e⟩ <;> rw [e]
  · exact hn _ _ (K.input _ hs)
  · exact K.hold _ _ (K.input _ hs)
  · exact K.stop _ _ (K.input _ hs)

theorem KeptBy.scan (hs : P s) (service : StringService) (words : Nat) (a : Word) :
    P (State.scan service words a s) := by
  induction words generalizing a s with
  | zero => exact K.hold _ _ hs
  | succ n ih =>
    by_cases h : (s.afterRead a).mem.readWord a = 0
    · rw [State.scan_zero h]; exact K.withOutput (K.read _ _ hs) _ fun _ hu => hu
    · rw [State.scan_nonzero h]; exact K.withOutput (K.read _ _ hs) _ fun _ hu => ih hu _

/-- The instruction keeps what its own operations keep. -/
theorem exec_keepsBy (h : exec i s = .next t) (hs : P s) : P t := by
  cases i <;> cases h
  case br => split; exacts [K.pc rfl _ _ hs, hs]
  case addReg | andReg => exact K.withReg hs _ fun _ => K.withReg hs _ fun _ => K.dest _ rfl rfl _ _ hs
  case addImm | andImm | not => exact K.withReg hs _ fun _ => K.dest _ rfl rfl _ _ hs
  case ld => exact K.dest _ rfl rfl _ _ (K.read _ _ hs)
  case ldi => exact K.dest _ rfl rfl _ _ (K.read _ _ (K.read _ _ hs))
  case ldr => exact K.withReg hs _ fun _ => K.dest _ rfl rfl _ _ (K.read _ _ hs)
  case lea => exact K.dest _ rfl rfl _ _ hs
  case st => exact K.withReg hs _ fun _ => K.write rfl _ _ _ hs
  case sti => exact K.withReg (K.read _ _ hs) _ fun _ => K.write rfl _ _ _ (K.read _ _ hs)
  case str => exact K.withReg hs _ fun _ => K.withReg hs _ fun _ => K.write rfl _ _ _ hs
  case jmp => exact K.withReg hs _ fun _ => K.pc rfl _ _ hs
  case rti | res => exact K.stop _ _ hs
  all_goals have hl := K.link (by simp [Instr.destRegs]) _ hs
  case jsr => exact K.pc rfl _ _ hl
  case jsrr =>
    split
    · exact K.withReg hl _ fun _ => K.pc rfl _ _ hl
    · exact K.withReg hs _ fun _ => K.pc rfl _ _ hl
  case trapGetc => exact K.withInput hl _ fun _ _ hu => K.dest _ rfl rfl _ _ hu
  case trapOut => exact K.withReg hl _ fun _ => K.withOutput hl _ fun _ hu => hu
  case trapPuts | trapPutsp => exact K.withReg hl _ fun _ => K.scan hl _ _ _
  case trapIn =>
    exact K.withOutput hl _ fun _ hu => K.withInput hu _ fun _ _ hv =>
      K.withOutput hv _ fun _ hw => K.dest _ rfl rfl _ _ hw
  case trapHalt => exact K.withOutput hl _ fun _ hu => K.halt _ hu
  case trapUnknown => exact K.stop _ _ hl

end

/-- COND stays as it is but by SetCC (R30). -/
theorem keptBy_cond {i : Instr} (hi : i.writesCond = false) (c : Cond) : KeptBy i fun u => u.cond = c where
  read u a hu := (u.afterRead_cond a).trans hu
  out _ _ _ hu := hu
  input u hu := u.takeAnswer_cond.trans hu
  hold _ _ hu := hu
  stop _ _ hu := hu
  halt _ hu := hu
  write _ _ _ _ hu := hu
  dest _ hw := absurd hw (by simp [hi])
  link _ _ hu := hu
  pc _ _ _ hu := hu

/-- PC stays as it is but by a transfer (R25). -/
theorem keptBy_pc {i : Instr} (hi : i.writesPc = false) (p : Word) : KeptBy i fun u => u.pc = p where
  read u a hu := (u.afterRead_pc a).trans hu
  out _ _ _ hu := hu
  input u hu := u.takeAnswer_pc.trans hu
  hold _ _ hu := hu
  stop _ _ hu := hu
  halt _ hu := hu
  write _ _ _ _ hu := hu
  dest _ _ _ _ _ hu := hu
  link _ _ hu := hu
  pc hw := absurd hw (by simp [hi])

/-- Settles O10: such an instruction uses no operation that writes COND. -/
theorem onlyFlagWritersChangeCond : Obligations.OnlyFlagWritersChangeCond :=
  fun _ s _ h hi => exec_keepsBy (keptBy_cond hi s.cond) h rfl

/-- Settles O50: such an instruction uses no operation that writes PC. -/
theorem onlyTransfersMovePc : Obligations.OnlyTransfersMovePc :=
  fun _ s _ h hi => exec_keepsBy (keptBy_pc hi s.pc) h rfl

/-! The register frame (R22, R23). -/

theorem KeepsRegs.refl (but : List Reg) (s : State) : KeepsRegs but s s := fun _ _ => ⟨rfl, rfl⟩

/-- A write of a named register is in the frame that leaves it out. -/
theorem KeepsRegs.setReg {but : List Reg} {s u : State} (hu : KeepsRegs but s u) {r : Reg} (hr : r ∈ but) (v : Word) :
    KeepsRegs but s (u.setReg r v) := by
  intro q hq
  have hne : q ≠ r := fun e => hq (e ▸ hr)
  simpa [State.setReg_reg_ne u v hne, State.setReg_readable, hne] using hu q hq

theorem keptBy_regs (i : Instr) (s : State) : KeptBy i (KeepsRegs i.destRegs s) where
  read u a hu := by simpa [KeepsRegs] using hu
  out _ _ _ hu := hu
  input u hu := by simpa [KeepsRegs] using hu
  hold _ _ hu := hu
  stop _ _ hu := hu
  halt _ hu := hu
  write _ _ _ _ hu := hu
  dest _ _ hr _ v hu := hu.setReg (List.mem_of_head? hr) v
  link hr u hu := hu.setReg hr u.pc
  pc _ _ _ hu := hu

/-! The link of every TRAP (R170). -/

/-- The seven TRAP rows of the table. -/
inductive IsTrap : Instr → Prop where
  | getc : IsTrap .trapGetc
  | out : IsTrap .trapOut
  | puts : IsTrap .trapPuts
  | inService : IsTrap .trapIn
  | putsp : IsTrap .trapPutsp
  | halt : IsTrap .trapHalt
  | unknown (code : BitVec 8) : IsTrap (.trapUnknown code)

theorem isTrap_iff (i : Instr) :
    IsTrap i ↔ i ∈ [.trapGetc, .trapOut, .trapPuts, .trapIn, .trapPutsp, .trapHalt] ∨
      ∃ code, i = .trapUnknown code := by
  constructor
  · rintro (_ | _) <;> simp
  · simp only [List.mem_cons, List.not_mem_nil, or_false]
    rintro ((rfl | rfl | rfl | rfl | rfl | rfl) | ⟨code, rfl⟩) <;> constructor

theorem State.link_link (s : State) : s.link.link = s.link := by
  simp [State.link, State.setReg]

/-- A TRAP writes the link before all else, so it does the same from a state with its link written. -/
theorem exec_link {i : Instr} (hi : IsTrap i) (s : State) : exec i s.link = exec i s := by
  cases hi <;>
    simp only [exec, execTrapGetc, execTrapOut, execTrapPuts, execTrapIn, execTrapPutsp, execTrapHalt, execTrapUnknown,
      State.link_link, State.link_params]

theorem IsTrap.writesPc {i : Instr} (hi : IsTrap i) : i.writesPc = false := by cases hi <;> rfl

theorem IsTrap.dest_eq_zero {i : Instr} (hi : IsTrap i) {r : Reg} (hw : i.writesCond = true)
    (hr : i.destRegs.head? = some r) : r = 0 := by
  cases hi <;> cases hw <;> cases hr <;> rfl

/-- R7 holds the link and may be read. -/
def State.Linked (p : Word) (u : State) : Prop := u.pc = p ∧ u.reg 7 = p ∧ u.readable 7 = true

theorem State.link_linked (s : State) : s.link.Linked s.pc := by simp [State.Linked, State.link_readable]

/-- No service of a TRAP writes R7 again: GETC and IN write R0. -/
theorem keptBy_linked {i : Instr} (hi : IsTrap i) (p : Word) : KeptBy i (State.Linked p) where
  read u a hu := by simpa [State.Linked] using hu
  out _ _ _ hu := hu
  input u hu := by simpa [State.Linked] using hu
  hold _ _ hu := hu
  stop _ _ hu := hu
  halt _ hu := hu
  write _ _ _ _ hu := hu
  dest r hw hr u v hu := by
    obtain rfl := hi.dest_eq_zero hw hr
    simpa [State.Linked, State.setDest_reg, State.setDest_readable] using hu
  link _ u hu := hu.1 ▸ u.link_linked
  pc hw := absurd hw (by simp [hi.writesPc])

/-- Every TRAP leaves R7 with the incremented PC, whatever its service does. -/
theorem exec_trap_linked {i : Instr} {s t : State} (hi : IsTrap i) (h : exec i s = .next t) : t.Linked s.pc :=
  exec_keepsBy (keptBy_linked hi s.pc) ((exec_link hi s).trans h) s.link_linked

/-! An operation that leaves the core running and holding for nothing went on to its end. -/

/-- `Q` holds where the state is one in which the core runs and holds for nothing. -/
def WhenIdle (Q : State → Prop) (t : State) : Prop := t.Idle → Q t

section
variable {Q : State → Prop} {s : State}

theorem WhenIdle.withReg {r : Reg} {next : Word → State} (hn : ∀ v, WhenIdle Q (next v)) :
    WhenIdle Q (s.withReg r next) := by
  rcases s.withReg_cases r next with ⟨-, e⟩ | ⟨-, e⟩ <;> rw [e]
  · exact hn _
  · exact fun ht => nomatch ht.1

theorem WhenIdle.withOutput {events : List OutEvent} {next : State → State} (hn : ∀ u, WhenIdle Q (next u)) :
    WhenIdle Q (s.withOutput events next) := by
  rcases s.withOutput_cases events next with ⟨-, e⟩ | ⟨k, -, -, e⟩ <;> rw [e]
  · exact hn _
  · exact fun ht => nomatch ht.1

theorem WhenIdle.withInput {hd : Hold} {next : Byte → State → State} (hn : ∀ b u, WhenIdle Q (next b u)) :
    WhenIdle Q (s.withInput hd next) := by
  rcases s.withInput_cases hd next with ⟨b, -, e⟩ | ⟨-, e⟩ | ⟨-, e⟩ <;> rw [e]
  · exact hn _ _
  · exact fun ht => nomatch ht.2
  · exact fun ht => nomatch ht.1

end

/-- The last act was to write `r` and set COND from it. -/
def SetsDest (r : Reg) (t : State) : Prop := ∃ (u : State) (v : Word), t = u.setDest r v

theorem setDest_setsDest (u : State) (r : Reg) (v : Word) : WhenIdle (SetsDest r) (u.setDest r v) :=
  fun _ => ⟨u, v, rfl⟩

/-- A flag writer that neither stops nor holds ends with the write of its destination (R30, R149). -/
theorem exec_setsDest {i : Instr} {s t : State} {r : Reg} (h : exec i s = .next t) (hw : i.writesCond = true)
    (hr : i.destRegs.head? = some r) : WhenIdle (SetsDest r) t := by
  cases i <;> cases hw <;> cases hr <;> cases h
  case addReg | andReg => exact .withReg fun _ => .withReg fun _ => setDest_setsDest _ _ _
  case addImm | andImm | not | ldr => exact .withReg fun _ => setDest_setsDest _ _ _
  case ld | ldi | lea => exact setDest_setsDest _ _ _
  case trapGetc => exact .withInput fun _ _ => setDest_setsDest _ _ _
  case trapIn => exact .withOutput fun _ => .withInput fun _ _ => .withOutput fun _ => setDest_setsDest _ _ _

/-- JSRR that does not stop has written the link. -/
theorem exec_jsrr_readable {base : Reg} {s t : State} (h : exec (.jsrr base) s = .next t) :
    WhenIdle (fun u => u.readable 7 = true) t := by
  have hl : ∀ target, WhenIdle (fun u => u.readable 7 = true) (s.link.setPc target) := fun _ _ => s.link_linked.2.2
  cases horder : s.params.jsrrLinkOrder with
  | linkFirst => rw [exec_jsrr_linkFirst horder] at h; cases h; exact .withReg hl
  | targetFirst => rw [exec_jsrr_targetFirst horder] at h; cases h; exact .withReg hl

/-- A register is a destination of a flag writer, or the link of a TRAP or of a call. -/
theorem destRegs_cases {i : Instr} {r : Reg} (hr : r ∈ i.destRegs) :
    (i.writesCond = true ∧ i.destRegs.head? = some r) ∨
      r = 7 ∧ (IsTrap i ∨ (∃ off, i = .jsr off) ∨ ∃ base, i = .jsrr base) := by
  cases i <;> simp_all [Instr.destRegs, Instr.writesCond, isTrap_iff]
  case trapGetc | trapIn => exact hr.imp_left Eq.symm

/-- An instruction that neither stops nor holds leaves its destinations readable (R23). -/
theorem exec_dest_readable {i : Instr} {s t : State} {r : Reg} (h : exec i s = .next t) (ht : t.Idle)
    (hr : r ∈ i.destRegs) : t.readable r = true := by
  rcases destRegs_cases hr with ⟨hw, hr⟩ | ⟨rfl, hi | ⟨off, rfl⟩ | ⟨base, rfl⟩⟩
  · obtain ⟨u, v, rfl⟩ := exec_setsDest h hw hr ht
    simp [State.setDest_readable]
  · exact (exec_trap_linked hi h).2.2
  · cases h
    exact s.link_linked.2.2
  · exact exec_jsrr_readable h ht

/-- Settles O11: the last act of such an instruction is the write of the destination with its flag. -/
theorem flagWritersSetCondFromTheDestination : Obligations.FlagWritersSetCondFromTheDestination := by
  intro i s t r others h hw hr hrun hhold
  obtain ⟨u, v, rfl⟩ := exec_setsDest h hw (by rw [hr]; rfl) ⟨hrun, hhold⟩
  rw [State.setDest_cond, State.setDest_reg_self]

/-- Settles O49, from the register frame, the destinations written at the end, and the link of every TRAP. -/
theorem destinationsAndNoOthersAreWritten : Obligations.DestinationsAndNoOthersAreWritten := by
  intro i s t h
  refine ⟨exec_keepsBy (keptBy_regs i s) h (.refl _ s),
    fun hrun hhold r hr => exec_dest_readable h ⟨hrun, hhold⟩ hr, fun hi => ?_⟩
  exact (exec_trap_linked ((isTrap_iff i).mpr hi) h).2

/-! The channel (R35, R36, R60). -/

/-- The record of `s` has only grown at its end, and its answers have been taken in their order only. -/
def ChannelAfter (s u : State) : Prop :=
  s.output <+: u.output ∧ u.input <:+ s.input ∧ s.drawn ≤ u.drawn ∧ (u.drawn ≠ s.drawn → u.input = [])

theorem ChannelAfter.refl (s : State) : ChannelAfter s s :=
  ⟨List.prefix_refl _, List.suffix_refl _, Nat.le_refl _, fun hne => absurd rfl hne⟩

theorem ChannelAfter.takeAnswer {s u : State} (hu : ChannelAfter s u) : ChannelAfter s u.takeAnswer := by
  obtain ⟨hout, hin, hdrawn, horder⟩ := hu
  cases h : u.input with
  | nil =>
    rw [u.takeAnswer_nil h]
    exact ⟨hout, hin, Nat.le_succ_of_le hdrawn, fun _ => h⟩
  | cons answer rest =>
    have hsame : u.drawn = s.drawn := by
      by_contra hne
      simp [horder hne] at h
    rw [u.takeAnswer_cons h]
    exact ⟨hout, (List.suffix_cons answer rest).trans (h ▸ hin), hdrawn, fun hne => absurd hsame hne⟩

/-- A read polls, and a poll takes one answer. -/
theorem ChannelAfter.afterRead {s u : State} (hu : ChannelAfter s u) (a : Word) : ChannelAfter s (u.afterRead a) := by
  rcases u.afterRead_cases a with ⟨-, e⟩ | ⟨-, e⟩ <;> rw [e]
  · exact hu
  · rcases u.poll_cases with ⟨b, -, e⟩ | ⟨-, e⟩ <;> rw [e] <;> exact hu.takeAnswer

theorem kept_channelAfter (s : State) : Kept (ChannelAfter s) where
  read _ a hu := hu.afterRead a
  write _ _ _ hu := hu
  dest _ _ _ hu := hu
  link _ hu := hu
  pc _ _ hu := hu
  out _ _ _ hu := ⟨hu.1.trans (List.prefix_append _ _), hu.2⟩
  input _ hu := hu.takeAnswer
  hold _ _ hu := hu
  stop _ _ hu := hu
  halt _ hu := hu

/-- Settles O57: every operation keeps the parameters and the order of the channel. -/
theorem channelOrderIsKept : Obligations.ChannelOrderIsKept :=
  fun s _ h => ⟨step_keeps (kept_params s.params) h rfl, step_keeps (kept_channelAfter s) h (.refl s)⟩

/-! Why a run ends (R201). -/

/-- What a step does: it executes an instruction, or it goes on with a held service. -/
inductive Activity where
  | instr (i : Instr)
  | held (h : Hold)

/-- It may read the input channel. -/
def Activity.Reads : Activity → Prop
  | .instr i => i ∈ [.trapGetc, .trapIn]
  | .held h => h = .getc ∨ h = .inService

/-- It may send to the output channel. -/
def Activity.Sends : Activity → Prop
  | .instr i => i ∈ [.trapOut, .trapPuts, .trapIn, .trapPutsp, .trapHalt]
  | .held h => h = .inService ∨ ∃ service a, h = .string service a

/-- The run states in which the activity `a`, started in `s`, can leave `t`, each with the cause R201 gives for it. -/
inductive EndCause (a : Activity) (s t : State) : RunState → Prop where
  | running : EndCause a s t .running
  | halted (ha : a = .instr .trapHalt) : EndCause a s t .halted
  | rti (ha : a = .instr .rti) : EndCause a s t (.fatal (.illegalOpcode .rti))
  | res (ha : a = .instr .res) : EndCause a s t (.fatal (.illegalOpcode .res))
  | unknownTrap {code : BitVec 8} (ha : a = .instr (.trapUnknown code)) :
      EndCause a s t (.fatal (.unknownTrap code))
  | unwritten {i : Instr} {r : Reg} (ha : a = .instr i) (hr : s.readable r = false) :
      EndCause a s t (.fatal (.unwrittenRegister r))
  | failed (ha : a.Reads) (hs : s.nextAnswer = .failed) : EndCause a s t (.fatal .ioFailure)
  | refused (ha : a.Sends) (hs : ∃ k, s.accepts = some k) (ht : t.accepts = some 0) :
      EndCause a s t (.fatal .ioFailure)

theorem EndCause.of_running {a : Activity} {s t : State} (h : t.run = .running) : EndCause a s t t.run :=
  h ▸ .running

/-- `u` is a state in the course of a step from `s`: the core runs, what could be read can be read, and the host's
patience is bounded only where it was. -/
structure Underway (s u : State) : Prop where
  run : u.run = .running
  readable : ∀ r, s.readable r = true → u.readable r = true
  accepts : s.accepts = none → u.accepts = none

theorem Underway.refl {s : State} (hs : s.run = .running) : Underway s s := ⟨hs, fun _ h => h, fun h => h⟩

section
variable {a : Activity} {s u : State} (hu : Underway s u)
include hu

theorem Underway.link : Underway s u.link :=
  ⟨hu.run, fun r hr => by simp [State.link_readable, hu.readable r hr], hu.accepts⟩

theorem Underway.afterRead (c : Word) : Underway s (u.afterRead c) :=
  ⟨by simpa using hu.run, by simpa using hu.readable, by simpa using hu.accepts⟩

theorem Underway.takeAnswer : Underway s u.takeAnswer :=
  ⟨by simpa using hu.run, by simpa using hu.readable, by simpa using hu.accepts⟩

theorem Underway.setOutput (sent : List OutEvent) (n : Nat) : Underway s (u.setOutput sent (u.acceptsAfter n)) :=
  ⟨hu.run, hu.readable, fun h => by simp [State.acceptsAfter, hu.accepts h]⟩

/-- A register that cannot be read could not be read before the step. -/
theorem Underway.withReg {i : Instr} {r : Reg} {next : Word → State}
    (hn : ∀ v, EndCause (.instr i) s (next v) (next v).run) :
    EndCause (.instr i) s (u.withReg r next) (u.withReg r next).run := by
  rcases u.withReg_cases r next with ⟨-, e⟩ | ⟨hr, e⟩ <;> rw [e]
  · exact hn _
  · refine .unwritten rfl (Bool.eq_false_iff.mpr fun h => ?_)
    simp [hu.readable r h] at hr

/-- Output that the host refuses leaves it with no patience, which it had a bound of before the step. -/
theorem Underway.withOutput (ha : a.Sends) {events : List OutEvent} {next : State → State}
    (hn : ∀ sent n, EndCause a s (next (u.setOutput sent (u.acceptsAfter n)))
      (next (u.setOutput sent (u.acceptsAfter n))).run) :
    EndCause a s (u.withOutput events next) (u.withOutput events next).run := by
  rcases u.withOutput_cases events next with ⟨-, e⟩ | ⟨k, hk, -, e⟩ <;> rw [e]
  · exact hn _ _
  · refine .refused ha (Option.ne_none_iff_exists'.mp fun h => ?_) rfl
    simp [hu.accepts h] at hk

/-- A blocking read fails only where the next answer of the step is a failure. -/
theorem Underway.withInput (ha : a.Reads) (hans : u.nextAnswer = s.nextAnswer) {hd : Hold}
    {next : Byte → State → State} (hn : ∀ b, EndCause a s (next b u.takeAnswer) (next b u.takeAnswer).run) :
    EndCause a s (u.withInput hd next) (u.withInput hd next).run := by
  rcases u.withInput_cases hd next with ⟨b, -, e⟩ | ⟨-, e⟩ | ⟨hf, e⟩ <;> rw [e]
  · exact hn b
  · exact .of_running hu.takeAnswer.run
  · exact .failed ha (hans ▸ hf)

theorem Underway.finishIn (ha : a.Sends) (b : Byte) : EndCause a s (State.finishIn b u) (State.finishIn b u).run :=
  hu.withOutput ha fun _ _ => .of_running hu.run

theorem Underway.scan (ha : a.Sends) (service : StringService) (words : Nat) (c : Word) :
    EndCause a s (State.scan service words c u) (State.scan service words c u).run := by
  induction words generalizing c u with
  | zero => exact .of_running hu.run
  | succ n ih =>
    have hr := hu.afterRead c
    by_cases h : (u.afterRead c).mem.readWord c = 0
    · rw [State.scan_zero h]; exact hr.withOutput ha fun _ _ => .of_running hr.run
    · rw [State.scan_nonzero h]; exact hr.withOutput ha fun _ _ => ih (hr.setOutput _ _) _

end

/-- An instruction leaves the core running, or ends the run with a cause. -/
theorem exec_endCause {i : Instr} {s t : State} (h : exec i s = .next t) (hrun : s.run = .running) :
    EndCause (.instr i) s t t.run := by
  have hs := Underway.refl hrun
  have hl := hs.link
  cases i <;> cases h
  case br => split <;> exact .of_running hrun
  case addReg | andReg | str => exact hs.withReg fun _ => hs.withReg fun _ => .of_running hrun
  case addImm | andImm | not | jmp | st => exact hs.withReg fun _ => .of_running hrun
  case jsr | lea => exact .of_running hrun
  case jsrr =>
    split
    · exact hl.withReg fun _ => .of_running hrun
    · exact hs.withReg fun _ => .of_running hrun
  case ld => exact .of_running (hs.afterRead _).run
  case ldi => exact .of_running ((hs.afterRead _).afterRead _).run
  case ldr => exact hs.withReg fun _ => .of_running (hs.afterRead _).run
  case sti => exact (hs.afterRead _).withReg fun _ => .of_running (hs.afterRead _).run
  case rti => exact .rti rfl
  case res => exact .res rfl
  case trapGetc =>
    exact hl.withInput (by simp [Activity.Reads]) rfl fun _ => .of_running hl.takeAnswer.run
  case trapOut => exact hl.withReg fun _ => hl.withOutput (by simp [Activity.Sends]) fun _ _ => .of_running hrun
  case trapPuts | trapPutsp => exact hl.withReg fun _ => hl.scan (by simp [Activity.Sends]) _ _ _
  case trapIn =>
    have ha : (Activity.instr .trapIn).Sends := by simp [Activity.Sends]
    exact hl.withOutput ha fun _ _ => (hl.setOutput _ _).withInput (by simp [Activity.Reads]) rfl fun b =>
      (hl.setOutput _ _).takeAnswer.finishIn ha b
  case trapHalt => exact hl.withOutput (by simp [Activity.Sends]) fun _ _ => .halted rfl
  case trapUnknown => exact .unknownTrap rfl

/-- So does a held service going on. -/
theorem resume_endCause {s : State} (hrun : s.run = .running) (hd : Hold) :
    EndCause (.held hd) s (s.resume hd) (s.resume hd).run := by
  have hs : Underway s (s.setHold none) := ⟨hrun, fun _ h => h, fun h => h⟩
  cases hd with
  | getc => exact hs.withInput (a := .held .getc) (Or.inl rfl) rfl fun _ => .of_running hs.takeAnswer.run
  | inService =>
    exact hs.withInput (a := .held .inService) (Or.inr rfl) rfl fun b =>
      hs.takeAnswer.finishIn (a := .held .inService) (Or.inl rfl) b
  | string service next =>
    exact hs.scan (a := .held (.string service next)) (Or.inr ⟨service, next, rfl⟩) service _ next

/-! The fetch at KBSR. -/

/-- A read of KBSR answers 0x8000, or a byte zero-extended where KBDR is the same word. -/
theorem readWord_kbsr (s : State) :
    (s.memRead s.params.kbsrAddr).1 = 0x8000 ∨ ∃ b : Byte, (s.memRead s.params.kbsrAddr).1 = b.setWidth 16 := by
  rw [State.memRead_value, State.afterRead_kbsr rfl]
  rcases s.poll_cases with ⟨b, -, e⟩ | ⟨-, e⟩ <;> rw [e]
  · by_cases h : s.params.kbsrAddr = s.params.kbdrAddr
    · exact .inr ⟨b, by simp [h]⟩
    · exact .inl (by simp [Memory.readWord_writeWord, h])
  · exact .inr ⟨0, by simp⟩

/-- No poll answers a word that is a TRAP: 0x8000 is RTI, and a zero-extended byte a BR. -/
theorem decode_kbsr_not_isTrap (s : State) : ¬ IsTrap (decode (s.memRead s.params.kbsrAddr).1) := by
  rcases readWord_kbsr s with h | ⟨b, h⟩ <;> rw [h]
  · rw [show decode 0x8000 = .rti by decide]
    exact fun hi => nomatch hi
  · have hop : opcodeOf (b.setWidth 16) = .br := by simp [opcodeOf]
    rw [decode, hop]
    exact fun hi => nomatch hi

/-- An instruction that reads the input channel was not fetched at KBSR, so the fetch changed nothing. -/
theorem fetch_state_of_reads {s : State} (h : (Activity.instr (decode (s.memRead s.pc).1)).Reads) :
    (s.memRead s.pc).2 = s := by
  refine State.afterRead_ne fun hpc => ?_
  have hi : IsTrap (decode (s.memRead s.pc).1) := by
    simp only [Activity.Reads, List.mem_cons, List.not_mem_nil, or_false] at h
    rcases h with h | h <;> rw [h] <;> constructor
  exact decode_kbsr_not_isTrap s (hpc ▸ hi)

/-- The activity is what a step from `s` does that fetches `w` where `s` holds for nothing. -/
def Activity.Runs (s : State) (w : Word) : Activity → Prop
  | .instr i => s.hold = none ∧ decode w = i
  | .held h => s.hold = some h

theorem Activity.Runs.reads {s : State} {w : Word} {a : Activity} (ha : a.Runs s w) (h : a.Reads) :
    s.hold = some .getc ∨ s.hold = some .inService ∨ (s.hold = none ∧ decode w ∈ [.trapGetc, .trapIn]) := by
  cases a with
  | instr i => exact .inr (.inr ⟨ha.1, ha.2 ▸ h⟩)
  | held hd => rcases h with rfl | rfl; exacts [.inl ha, .inr (.inl ha)]

theorem Activity.Runs.sends {s : State} {w : Word} {a : Activity} (ha : a.Runs s w) (h : a.Sends) :
    s.hold = some .inService ∨ (∃ service next, s.hold = some (.string service next)) ∨
      (s.hold = none ∧ decode w ∈ [.trapOut, .trapPuts, .trapIn, .trapPutsp, .trapHalt]) := by
  cases a with
  | instr i => exact .inr (.inr ⟨ha.1, ha.2 ▸ h⟩)
  | held hd =>
    rcases h with rfl | ⟨service, next, rfl⟩
    exacts [.inl ha, .inr (.inl ⟨service, next, ha⟩)]

/-- A cause in the state after the fetch is one in the state before the step. -/
theorem EndCause.of_fetch {s t : State} {r : RunState}
    (h : EndCause (.instr (decode (s.memRead s.pc).1)) ((s.memRead s.pc).2.setPc (s.pc + 1)) t r) :
    EndCause (.instr (decode (s.memRead s.pc).1)) s t r := by
  cases h with
  | running => exact .running
  | halted ha => exact .halted ha
  | rti ha => exact .rti ha
  | res ha => exact .res ha
  | unknownTrap ha => exact .unknownTrap ha
  | unwritten ha hr => exact .unwritten ha (by simpa using hr)
  | failed ha hs => exact .failed ha (by rw [fetch_state_of_reads ha] at hs; exact hs)
  | refused ha hs ht => exact .refused ha (by simpa using hs) ht

/-- A step ends at the ceiling, or what it does gives the cause. -/
theorem step_endCause {s t : State} (h : step s = .next t) :
    (s.hold = none ∧ s.pc = 0xFFFF ∧ t.run = .fatal .pcCeiling) ∨
      ∃ a : Activity, a.Runs s (s.memRead s.pc).1 ∧ EndCause a s t t.run := by
  obtain ⟨hrun, ⟨hd, hhold, rfl⟩ | ⟨hhold, hpc, rfl⟩ | ⟨hhold, -, h⟩⟩ := step_cases h
  · exact .inr ⟨.held hd, hhold, resume_endCause hrun hd⟩
  · exact .inl ⟨hhold, hpc, rfl⟩
  · exact .inr ⟨.instr _, ⟨hhold, rfl⟩, (exec_endCause h (by simpa using hrun)).of_fetch⟩

/-- Settles O52: each end has one cause, and the activity says which instruction or hold the step was at. -/
theorem everyEndHasItsCause : Obligations.EveryEndHasItsCause := by
  intro s t w h hw
  rcases step_endCause h with ⟨hhold, hpc, hrun⟩ | ⟨a, ha, hc⟩
  · simp [hrun, hhold, hpc]
  · rw [hw] at ha
    generalize t.run = r at hc
    cases hc with
    | running => simp
    | halted e | rti e | res e | unknownTrap e =>
      subst e
      obtain ⟨hhold, hdecode⟩ := ha
      simp [hhold, hdecode]
    | unwritten e hr =>
      subst e
      simp [ha.1, hr]
    | failed hreads hanswer =>
      exact ⟨nofun, nofun, nofun, nofun, fun _ => .inl ⟨hanswer, ha.reads hreads⟩, nofun, nofun⟩
    | refused hsends hbound hzero =>
      exact ⟨nofun, nofun, nofun, nofun, fun _ => .inr ⟨hbound, hzero, ha.sends hsends⟩, nofun, nofun⟩

/-! Single rules of the state. -/

/-- Settles O9: the flag reads the high bit of a value that is not zero. -/
theorem setCCFollowsTheValue : Obligations.SetCCFollowsTheValue := by
  intro s v
  rw [State.setCC_cond, BitVec.msb_eq_getLsbD_last]
  exact ⟨fun h => if_pos h, fun h hm => (if_neg h).trans (if_pos hm),
    fun h hm => (if_neg h).trans (if_neg (Bool.eq_false_iff.mp hm))⟩

/-- Settles O13: the fetch at the ceiling makes its read and stops. -/
theorem stepAtTheCeilingStops : Obligations.StepAtTheCeilingStops := by
  intro s hrun hhold hpc
  refine ⟨_, step_ceiling ⟨hrun, hhold⟩ hpc, rfl, by simpa using hpc, by simp, by simp [KeepsRegs], by simp,
    fun hkbsr => ?_⟩
  rw [State.afterRead_ne (hpc ▸ hkbsr.symm)]
  exact ⟨fun _ => rfl, ⟨rfl, rfl⟩, rfl, rfl⟩

/-- Settles O14: `step` asks the run state first. -/
theorem noStepAfterTheEnd : Obligations.NoStepAfterTheEnd := fun s =>
  ⟨fun h => by simp only [step, h], fun reason h => by simp only [step, h], fun _ h => (step_cases h).1⟩

/-- Settles O21: each register read of an instruction stops the run, after what the instruction did before it. -/
theorem unwrittenRegisterStops : Obligations.UnwrittenRegisterStops := by
  intro r p q imm5 off6 off9 s hr
  have hstop (next : Word → State) :
      Host.Outcome.next (s.withReg r next) = (.next (s.stop (.unwrittenRegister r)) : Result) :=
    congrArg _ (State.withReg_unwritten hr next)
  have hlinked (h7 : r ≠ 7) (next : Word → State) :
      Host.Outcome.next (s.link.withReg r next) = (.next (s.link.stop (.unwrittenRegister r)) : Result) :=
    congrArg _ (State.withReg_unwritten (by simp [State.link_readable, h7, hr]) next)
  refine ⟨hstop _, hstop _, hstop _, hstop _, hstop _, hstop _, hstop _, hstop _, hstop _, fun hp => ?_, ?_,
    fun horder => (exec_jsrr_targetFirst horder r).trans (hstop _),
    fun horder h7 => (exec_jsrr_linkFirst horder r).trans (hlinked h7 _), ?_⟩
  · have hfirst (next : Word → State) : Host.Outcome.next (s.withReg p next) = (.next (next (s.reg p)) : Result) :=
      congrArg _ (State.withReg_readable hp next)
    exact ⟨(hfirst _).trans (hstop _), (hfirst _).trans (hstop _), (hfirst _).trans (hstop _)⟩
  · rw [← sext_eq_signExtend]
    exact congrArg _ (State.withReg_unwritten (s := s.afterRead _) (by simpa using hr) _)
  · rintro rfl
    exact ⟨hlinked (by decide) _, hlinked (by decide) _, hlinked (by decide) _⟩

/-- The link and a jump: R7 and PC are written, and nothing else. -/
theorem link_setPc_frame (s : State) (target : Word) : KeepsAllButRegs [7] s (s.link.setPc target) :=
  ⟨(KeepsRegs.refl [7] s).setReg (by simp) s.pc, fun _ => rfl, ⟨⟨rfl, rfl⟩, rfl, rfl⟩, rfl, rfl, rfl⟩

/-- JSRR jumps to its base's value, under LinkFirst as it is after the link. -/
theorem exec_jsrr {base : Reg} {s : State}
    (h : (s.params.jsrrLinkOrder = .linkFirst ∧ base = 7) ∨ s.readable base = true) :
    exec (.jsrr base) s = .next (s.link.setPc
      (if s.params.jsrrLinkOrder = .linkFirst ∧ base = 7 then s.pc else s.reg base)) := by
  cases horder : s.params.jsrrLinkOrder with
  | linkFirst =>
    have hr : s.link.readable base = true := by
      rw [State.link_readable]; simpa [horder] using h
    rw [exec_jsrr_linkFirst horder, State.withReg_readable hr, State.link_reg]
    simp
  | targetFirst =>
    have hr : s.readable base = true := by simpa [horder] using h
    rw [exec_jsrr_targetFirst horder, State.withReg_readable hr]
    simp

/-- Settles O25, from the one state both link orders end in. -/
theorem jsrrLinksAndJumps : Obligations.JsrrLinksAndJumps := fun _ s h =>
  ⟨_, exec_jsrr h, s.link_reg_seven, fun h7 => if_pos h7, fun h7 => if_neg h7, rfl, link_setPc_frame s _⟩

/-- Settles O36: the link, then R0 with its flag from the byte that the read takes. -/
theorem getcReadsAByte : Obligations.GetcReadsAByte := by
  intro s b hb
  have hexec : exec .trapGetc s = .next (s.link.takeAnswer.setDest 0 (b.setWidth 16)) :=
    congrArg _ (State.withInput_byte (s := s.link) hb .getc State.finishGetc)
  rw [State.takeAnswer_link] at hexec
  have hregs : KeepsRegs [0, 7] s (s.takeAnswer.link.setDest 0 (b.setWidth 16)) :=
    exec_keepsBy (keptBy_regs .trapGetc s) hexec (.refl _ s)
  exact ⟨_, hexec, State.setDest_reg_self _ _ _, (exec_trap_linked .getc hexec).2.1, rfl, by simp, hregs,
    fun _ => by simp, ⟨rfl, rfl⟩, by simp, by simp, by simp [KeepsRun]⟩

end Sys2Proof.Machine

/-! PROOFS. The statements of the family 20_memory: memory and the keyboard registers, the strings of PUTS and PUTSP,
and the services whose channel fails or has no byte yet. -/

namespace Sys2Proof.Machine

/-! Reads and writes of memory (R44 to R48). -/

theorem State.memRead_plain {s : State} {a : Word} (h : a ≠ s.params.kbsrAddr) :
    s.memRead a = (s.mem.readWord a, s) := by
  rw [State.memRead, State.afterRead_ne h]

/-- A poll that gets a byte leaves it in KBDR, with the ready bit alone in KBSR (R46). -/
theorem State.poll_byte_words {s : State} (hwf : s.params.wf) {b : Byte} (h : s.nextAnswer = .byte b) :
    s.poll.mem.readWord s.params.kbsrAddr = 0x8000 ∧ s.poll.mem.readWord s.params.kbdrAddr = b.setWidth 16 := by
  rw [State.poll_byte h]
  simp [Memory.readWord_writeWord_ne _ _ hwf]

/-- A poll that gets none leaves 0x0000 in KBSR (R46). -/
theorem State.poll_none_kbsr {s : State} (h : ∀ b, s.nextAnswer ≠ .byte b) :
    s.poll.mem.readWord s.params.kbsrAddr = 0x0000 := by
  rw [State.poll_none h, State.memWrite_mem, Memory.readWord_writeWord_self]

/-- A poll that gets none leaves every word but KBSR, KBDR among them (R46). -/
theorem State.poll_none_ne {s : State} (h : ∀ b, s.nextAnswer ≠ .byte b) {c : Word} (hc : c ≠ s.params.kbsrAddr) :
    s.poll.mem.readWord c = s.mem.readWord c := by
  rw [State.poll_none h, State.memWrite_mem, Memory.readWord_writeWord_ne _ _ hc, State.takeAnswer_mem]

/-- Every word but KBSR and KBDR stays as it is but by a store; the parameters, which say where these two lie, stay. -/
theorem keptBy_words {i : Instr} (hi : i.isStore = false) (s : State) : KeptBy i fun u =>
    u.params = s.params ∧
      ∀ a, a ≠ s.params.kbsrAddr → a ≠ s.params.kbdrAddr → u.mem.readWord a = s.mem.readWord a where
  read u a hu := by
    obtain ⟨hp, hm⟩ := hu
    exact ⟨(u.afterRead_params a).trans hp,
      fun c hs hd => (u.afterRead_mem_ne a (hp ▸ hs) (hp ▸ hd)).trans (hm c hs hd)⟩
  out _ _ _ hu := hu
  input u hu := by simpa using hu
  hold _ _ hu := hu
  stop _ _ hu := hu
  halt _ hu := hu
  write hw := absurd hw (by simp [hi])
  dest _ _ _ _ _ hu := hu
  link _ _ hu := hu
  pc _ _ _ hu := hu

/-- Settles O27: only the read of KBSR polls. -/
theorem plainReadChangesNothing : Obligations.PlainReadChangesNothing := fun _ _ h => State.memRead_plain h

/-- Settles O26: a word reads back as written, and a store writes no field but memory. -/
theorem storeChangesOneWord : Obligations.StoreChangesOneWord := fun s a v c =>
  ⟨Memory.readWord_writeWord s.mem a c v, .refl [] s, rfl, rfl, ⟨⟨rfl, rfl⟩, rfl, rfl⟩, rfl, rfl, rfl⟩

/-- Settles O28: the read answers from the state its poll leaves, and the poll has its two cases. -/
theorem kbsrReadPolls : Obligations.KbsrReadPolls := by
  intro s t v hwf h
  obtain ⟨rfl, rfl⟩ := Prod.mk.inj h
  have hkeep (c : Word) (hs : c ≠ s.params.kbsrAddr) (hd : c ≠ s.params.kbdrAddr) :=
    s.afterRead_mem_ne s.params.kbsrAddr hs hd
  rw [State.afterRead_kbsr rfl] at hkeep ⊢
  refine ⟨fun b hb => ?_, fun hb => ?_, hkeep, s.poll_input, ?_⟩
  · obtain ⟨hkbsr, hkbdr⟩ := State.poll_byte_words hwf hb
    exact ⟨hkbsr, hkbsr, hkbdr⟩
  · have hkbsr := State.poll_none_kbsr hb
    exact ⟨hkbsr, hkbsr, State.poll_none_ne hb hwf.symm⟩
  · obtain ⟨hparams, hregs, hwritten, hpc, hcond, hrun, hhold, hout, haccepts⟩ := s.poll_keeps
    exact ⟨by simp [KeepsRegs, State.reg, State.readable, *], hpc, hcond, ⟨hparams, hrun, hhold⟩, hout, haccepts⟩

/-- Settles O51: without a store only a read reaches memory. -/
theorem onlyStoresWriteMemory : Obligations.OnlyStoresWriteMemory :=
  fun _ s _ h hi => (exec_keepsBy (keptBy_words hi s) h ⟨rfl, fun _ _ _ => rfl⟩).2

/-- ST stores a readable register at `pc + offset` (R146). -/
theorem exec_st {sr : Reg} {s : State} (h : s.readable sr = true) (off : BitVec 9) :
    exec (.st sr off) s = .next (s.memWrite (s.pc + off.signExtend 16) (s.reg sr)) := by
  rw [← sext_eq_signExtend]
  exact congrArg _ (State.withReg_readable h _)

/-- Settles O15: the store puts the word at PC, where the next step fetches it. -/
theorem storeIsSeenByTheNextFetch : Obligations.StoreIsSeenByTheNextFetch := by
  intro sr s hr hrun hhold hpc hkbsr
  have hexec : exec (.st sr 0) s = .next (s.memWrite s.pc (s.reg sr)) := by simpa using exec_st hr 0
  have hword : (s.memWrite s.pc (s.reg sr)).mem.readWord s.pc = s.reg sr := Memory.readWord_writeWord_self _ _ _
  exact ⟨_, hexec, (stepRunsTheDecodedInstruction (s.memWrite s.pc (s.reg sr)) hrun hhold hpc).2 _ hkbsr
    (congrArg decode hword)⟩

/-- Settles O53: each arm of `exec` is a meaning that answers `.next`. -/
theorem everyInstructionAnswers : Obligations.EveryInstructionAnswers := by
  intro i s
  cases i <;> exact ⟨_, rfl⟩

/-! The bytes of a word. -/

theorem lowByte_eq (w : Word) : lowByte w = w.setWidth 8 := (BitVec.setWidth_eq_extractLsb' (by decide)).symm

theorem highByte_eq (w : Word) : highByte w = (w >>> 8).setWidth 8 :=
  BitVec.eq_of_toNat_eq (by simp [highByte])

theorem highByte_eq_zero_iff (w : Word) : highByte w = 0x00 ↔ w >>> 8 = 0x0000 := by
  rw [highByte_eq]
  bv_omega

/-! The loader (R231, R232). -/

/-- The big-endian bytes of words are those words again (R232). -/
theorem imageWords_bytes (words : List Word) :
    imageWords (words.flatMap fun (w : Word) => [(w >>> 8).setWidth 8, w.setWidth 8]) = some words := by
  induction words with
  | nil => rfl
  | cons w rest ih =>
    have hw : (w >>> 8).setWidth 8 ++ w.setWidth 8 = w := by
      rw [← highByte_eq, ← lowByte_eq]
      exact BitVec.extractLsb'_append_extractLsb'
    simp only [List.flatMap_cons, List.cons_append, List.nil_append, imageWords, ih, Option.map_some, hw]

/-- An address that no word lies at is not written. -/
theorem Memory.readWord_writeWords_ne (m : Memory) {a c : Word} {words : List Word}
    (h : ∀ k < words.length, c ≠ a + BitVec.ofNat 16 k) : (m.writeWords a words).readWord c = m.readWord c := by
  induction words generalizing m a with
  | nil => rfl
  | cons w rest ih =>
    have hc : c ≠ a := by simpa using h 0 (by simp)
    rw [Memory.writeWords, ih _ fun k hk => add_ofNat_succ a k ▸ h (k + 1) (by simpa using hk),
      Memory.readWord_writeWord_ne _ _ hc]

/-- Two offsets below 2^16 are two addresses. -/
theorem add_ofNat_ne {a : Word} {j k : Nat} (hjk : j < k) (hk : k < 65536) :
    a + BitVec.ofNat 16 j ≠ a + BitVec.ofNat 16 k := by
  intro e
  have := congrArg BitVec.toNat ((BitVec.add_right_inj a).mp e)
  rw [BitVec.toNat_ofNat, BitVec.toNat_ofNat, Nat.mod_eq_of_lt (by omega), Nat.mod_eq_of_lt (by omega)] at this
  omega

/-- Word `k` lies `k` past the first, where the words meet no address twice. -/
theorem Memory.readWord_writeWords (m : Memory) (a : Word) {words : List Word} (hlen : words.length ≤ 65536)
    {k : Nat} (hk : k < words.length) : (m.writeWords a words).readWord (a + BitVec.ofNat 16 k) = words[k] := by
  induction words generalizing m a k with
  | nil => simp at hk
  | cons w rest ih =>
    rw [List.length_cons] at hlen hk
    cases k with
    | zero =>
      rw [Memory.writeWords, Memory.readWord_writeWords_ne]
      · simp
      · intro j hj
        rw [← add_ofNat_succ]
        exact add_ofNat_ne (by omega) (by omega)
    | succ k =>
      rw [add_ofNat_succ]
      exact ih _ _ (by omega) (by omega)

/-- Settles O59: the image's bytes are its origin and words, and the loader writes the words into memory all zero. -/
theorem loadedImageLiesAtItsOrigin : Obligations.LoadedImageLiesAtItsOrigin := by
  intro origin words hfit
  refine ⟨Memory.writeWords [] origin words, ?_, Memory.writeWords_wf Memory.wf_nil origin words,
    fun k hk => Memory.readWord_writeWords [] origin (by omega) hk, fun a ha => ?_⟩
  · rw [loadImage, imageWords_bytes]
    exact if_pos hfit
  · exact (Memory.readWord_writeWords_ne [] ha).trans (Memory.readWord_nil a)

/-! What every TRAP has done before its service writes R0 (R170). -/

/-- The link is written, and the other registers, COND and PC are as they were. -/
def OnlyLinked (s u : State) : Prop := u.reg 7 = s.pc ∧ u.cond = s.cond ∧ u.pc = s.pc ∧ KeepsRegs [7] s u

theorem State.link_onlyLinked (s : State) : OnlyLinked s s.link :=
  ⟨s.link_reg_seven, rfl, rfl, (KeepsRegs.refl [7] s).setReg (by simp) s.pc⟩

theorem OnlyLinked.takeAnswer {s u : State} (hu : OnlyLinked s u) : OnlyLinked s u.takeAnswer := by
  simpa [OnlyLinked, KeepsRegs] using hu

theorem OnlyLinked.afterReads {s u : State} (hu : OnlyLinked s u) (a : Word) (n : Nat) :
    OnlyLinked s (u.afterReads a n) := by
  simpa [OnlyLinked, KeepsRegs] using hu

/-! The services OUT, HALT, GETC and IN after the link. -/

theorem State.acceptsAll_of_le {s : State} {n k : Nat} (hk : s.accepts = some k) (h : n ≤ k) :
    s.acceptsAll n = true := by
  simp [State.acceptsAll, hk, h]

/-- OUT, PUTS and PUTSP read R0 after the link, which writes R7. -/
theorem State.link_withReg_zero {s : State} (h : s.readable 0 = true) (next : Word → State) :
    s.link.withReg 0 next = next (s.reg 0) := by
  have hr : s.link.readable 0 = true := by simp [State.link_readable, h]
  have h0 : s.link.reg 0 = s.reg 0 := by simp [State.link_reg]
  rw [State.withReg_readable hr, h0]

theorem exec_trapOut {s : State} (h : s.readable 0 = true) :
    exec .trapOut s = .next (s.link.withOutput [.byte (lowByte (s.reg 0))] id) :=
  congrArg _ (State.link_withReg_zero h _)

/-- What IN sends before its blocking read: the prompt and a flush (R174, D14). -/
def State.promptEvents (s : State) : List OutEvent := s.params.inPrompt.map OutEvent.byte ++ [OutEvent.flush]

@[simp] theorem State.promptEvents_length (s : State) : s.promptEvents.length = s.params.inPrompt.length + 1 := by
  simp [State.promptEvents]

/-- The state at the blocking read of IN: the link written, the prompt and its flush sent. -/
def State.prompted (s : State) : State :=
  s.link.setOutput s.promptEvents (s.acceptsAfter s.promptEvents.length)

theorem State.prompted_onlyLinked (s : State) : OnlyLinked s s.prompted := s.link_onlyLinked

@[simp] theorem State.prompted_mem (s : State) : s.prompted.mem = s.mem := rfl

@[simp] theorem State.prompted_output (s : State) : s.prompted.output = s.output ++ s.promptEvents := rfl

@[simp] theorem State.prompted_accepts (s : State) :
    s.prompted.accepts = s.acceptsAfter s.promptEvents.length := rfl

theorem exec_trapIn_prompted {s : State} (ha : s.acceptsAll (s.params.inPrompt.length + 1) = true) :
    exec .trapIn s = .next (s.prompted.withInput .inService State.finishIn) := by
  rw [← State.promptEvents_length] at ha
  exact congrArg _ (State.withOutput_accepted (s := s.link) ha _)

/-- A host that accepts the prompt and its flush, but not both of the echo and its flush, ends IN after its read. -/
theorem exec_trapIn_echo_refused {s : State} {b : Byte} {k : Nat} (hk : s.accepts = some k)
    (hb : s.nextAnswer = .byte b) (hle : s.params.inPrompt.length + 1 ≤ k) (hlt : k < s.params.inPrompt.length + 3) :
    exec .trapIn s = .next ((s.prompted.takeAnswer.setOutput
      ([OutEvent.byte b, .flush].take (k - s.promptEvents.length)) (some 0)).stop .ioFailure) := by
  have hleft : s.prompted.takeAnswer.accepts = some (k - s.promptEvents.length) := by simp [State.acceptsAfter, hk]
  rw [exec_trapIn_prompted (State.acceptsAll_of_le hk hle), State.withInput_byte (s := s.prompted) hb, State.finishIn,
    State.withOutput_refused hleft (by simp; omega)]

/-- Settles O45: the read fails after the link, and in IN after the prompt. -/
theorem endOfInputIsFatal : Obligations.EndOfInputIsFatal := by
  intro s hfailed
  refine ⟨?_, fun ha => ?_⟩
  · have hexec : exec .trapGetc s = .next (s.link.takeAnswer.stop .ioFailure) :=
      congrArg _ (State.withInput_failed (s := s.link) hfailed _ _)
    obtain ⟨h7, hcond, hpc, hregs⟩ := s.link_onlyLinked.takeAnswer
    exact ⟨_, hexec, rfl, h7, hcond, hpc, hregs, fun _ => by simp, by simp⟩
  · have hexec : exec .trapIn s = .next (s.prompted.takeAnswer.stop .ioFailure) :=
      (exec_trapIn_prompted ha).trans (congrArg _ (State.withInput_failed (s := s.prompted) hfailed _ _))
    obtain ⟨h7, hcond, hpc, hregs⟩ := s.prompted_onlyLinked.takeAnswer
    exact ⟨_, hexec, rfl, h7, hcond, hpc, hregs, fun _ => by simp, by simp [State.promptEvents]⟩

/-- Settles O46: each event of OUT, HALT and IN that the host refuses ends the run after those it accepted. -/
theorem outputFailureIsFatal : Obligations.OutputFailureIsFatal := by
  intro s k hk
  obtain ⟨h7, hcond, hpc, hregs⟩ := s.link_onlyLinked
  refine ⟨?_, ?_, fun hlt => ?_, fun b hb hle hlt => ?_⟩
  · rintro rfl hr
    have hexec : exec .trapOut s = .next ((s.link.setOutput [] (some 0)).stop .ioFailure) :=
      (exec_trapOut hr).trans (congrArg _ (State.withOutput_refused (s := s.link) hk (by simp) id))
    exact ⟨_, hexec, rfl, by simp, h7, hcond, hpc, hregs, fun _ => rfl⟩
  · rintro rfl
    have hexec : exec .trapHalt s = .next ((s.link.setOutput [] (some 0)).stop .ioFailure) :=
      congrArg _ (State.withOutput_refused (s := s.link) hk (by simp) State.halt)
    exact ⟨_, hexec, rfl, by simp, h7, hcond, hpc, hregs, fun _ => rfl⟩
  · rw [← State.promptEvents_length] at hlt
    have hexec : exec .trapIn s =
        .next ((s.link.setOutput (s.promptEvents.take k) (some 0)).stop .ioFailure) :=
      congrArg _ (State.withOutput_refused (s := s.link) hk hlt _)
    exact ⟨_, hexec, rfl, rfl, h7, hcond, hpc, hregs, fun _ => rfl⟩
  · have hexec := exec_trapIn_echo_refused hk hb hle hlt
    obtain ⟨h7, hcond, hpc, hregs⟩ := s.prompted_onlyLinked.takeAnswer
    have hevents : s.params.inPrompt.map OutEvent.byte ++ [OutEvent.flush, .byte b, .flush] =
        s.promptEvents ++ [OutEvent.byte b, .flush] := by simp [State.promptEvents]
    have hprompt : s.promptEvents.take k = s.promptEvents := List.take_of_length_le (by simpa using hle)
    exact ⟨_, hexec, rfl, by simp [hevents, List.take_append, hprompt], h7, hcond, hpc, hregs, fun _ => by simp⟩

theorem State.setHold_self {s : State} {hd : Option Hold} (h : s.hold = hd) : s.setHold hd = s := by
  subst h
  rfl

/-- A held GETC or IN whose answer is no byte holds on (R61, R242). -/
theorem step_waits {s : State} {hd : Hold} {next : Byte → State → State} (hrun : s.run = .running)
    (hhold : s.hold = some hd) (hresume : s.resume hd = (s.setHold none).withInput hd next)
    (hnothing : s.nextAnswer = .nothing) : step s = .next s.takeAnswer := by
  rw [step_held hrun hhold, hresume, State.withInput_nothing (s := s.setHold none) hnothing, State.takeAnswer_setHold]
  exact congrArg _ (State.setHold_self (s := s.takeAnswer) (by simpa using hhold))

/-- Settles O47: the read holds after the link, in IN after the prompt, and a held read holds on. -/
theorem servicesWaitForInput : Obligations.ServicesWaitForInput := by
  intro s hnothing
  refine ⟨?_, fun ha => ?_, fun hrun hhold => ?_⟩
  · have hexec : exec .trapGetc s = .next (s.link.takeAnswer.setHold (some .getc)) :=
      congrArg _ (State.withInput_nothing (s := s.link) hnothing _ _)
    obtain ⟨h7, hcond, hpc, hregs⟩ := s.link_onlyLinked.takeAnswer
    exact ⟨_, hexec, rfl, h7, hcond, hpc, hregs, fun _ => by simp, State.takeAnswer_congr rfl rfl, by simp⟩
  · have hexec : exec .trapIn s = .next (s.prompted.takeAnswer.setHold (some .inService)) :=
      (exec_trapIn_prompted ha).trans (congrArg _ (State.withInput_nothing (s := s.prompted) hnothing _ _))
    obtain ⟨h7, hcond, hpc, hregs⟩ := s.prompted_onlyLinked.takeAnswer
    exact ⟨_, hexec, rfl, h7, hcond, hpc, hregs, fun _ => by simp, State.takeAnswer_congr rfl rfl,
      by simp [State.promptEvents], by simp, by simp [State.prompted], by simp [State.prompted]⟩
  · rcases hhold with hhold | hhold
    · exact step_waits hrun hhold rfl hnothing
    · exact step_waits hrun hhold rfl hnothing

/-! One string of PUTS or PUTSP (R173, R175). -/

/-- The TRAP of a string service. -/
def StringService.trap : StringService → Instr
  | .puts => .trapPuts
  | .putsp => .trapPutsp

theorem exec_stringTrap (service : StringService) (s : State) :
    exec service.trap s = .next (s.link.putString service) := by
  cases service <;> rfl

theorem exec_stringTrap_readable {s : State} (h : s.readable 0 = true) (service : StringService) :
    exec service.trap s = .next (State.scan service 65536 (s.reg 0) s.link) := by
  rw [exec_stringTrap, State.putString, State.link_withReg_zero h, passWords_eq]

theorem wordEvents_puts (w : Word) : wordEvents .puts w = [.byte (w.setWidth 8)] := by
  rw [← lowByte_eq]
  rfl

theorem wordEvents_putsp (w : Word) : wordEvents .putsp w =
    if w >>> 8 = 0x0000 then [.byte (w.setWidth 8)] else [.byte (w.setWidth 8), .byte ((w >>> 8).setWidth 8)] := by
  simp only [wordEvents, highByte_eq_zero_iff]
  rw [lowByte_eq, highByte_eq]

/-- What the first `n` words that reads from `a` on give are sent as. -/
def State.sentWords (s : State) (service : StringService) (a : Word) (n : Nat) : List OutEvent :=
  (List.range n).flatMap fun k => wordEvents service (s.wordRead a k)

@[simp] theorem State.sentWords_link (s : State) (service : StringService) (a : Word) (n : Nat) :
    s.link.sentWords service a n = s.sentWords service a n := by simp [State.sentWords]

theorem State.sentWords_puts (s : State) (a : Word) (n : Nat) :
    s.sentWords .puts a n = (List.range n).map fun k => .byte ((s.wordRead a k).setWidth 8) := by
  simp only [State.sentWords, wordEvents_puts, List.map_eq_flatMap]

theorem State.sentWords_putsp (s : State) (a : Word) (n : Nat) :
    s.sentWords .putsp a n = (List.range n).flatMap fun k =>
      let w := s.wordRead a k
      if w >>> 8 = 0x0000 then [.byte (w.setWidth 8)] else [.byte (w.setWidth 8), .byte ((w >>> 8).setWidth 8)] := by
  simp only [State.sentWords, wordEvents_putsp]

/-- What the loop sends at the word `w`. -/
def loopEvents (service : StringService) (w : Word) : List OutEvent :=
  if w = 0x0000 then [.flush] else wordEvents service w

/-- The loop sends what the word it reads asks for, and ends or goes on. -/
theorem State.scan_succ (service : StringService) (more : Nat) (a : Word) (s : State) :
    State.scan service (more + 1) a s = (s.afterRead a).withOutput (loopEvents service (s.wordRead a 0))
      (if s.wordRead a 0 = 0x0000 then id else State.scan service more (a + 1)) := by
  rw [State.wordRead_zero, loopEvents]
  by_cases h : (s.afterRead a).mem.readWord a = 0
  · rw [State.scan_zero h, if_pos h, if_pos h]
  · rw [State.scan_nonzero h, if_neg h, if_neg h]

section
variable {service : StringService} {words n : Nat} {a : Word} {s : State}
  (hn : n < words) (hw : ∀ k < n, s.wordRead a k ≠ 0)
include hn hw

/-- The loop comes to the word after `n` that are not zero, where the host accepts what these send. -/
theorem State.scan_at (ha : s.acceptsAll (s.sentWords service a n).length = true) :
    ∃ next : State → State, (s.wordRead a n = 0 → next = id) ∧ State.scan service words a s =
      ((s.afterReads a (n + 1)).setOutput (s.sentWords service a n)
        (s.acceptsAfter (s.sentWords service a n).length)).withOutput (loopEvents service (s.wordRead a n)) next := by
  obtain ⟨more, rfl⟩ := Nat.exists_eq_add_of_lt hn
  have hword : (s.afterReads a n).wordRead (a + BitVec.ofNat 16 n) 0 = s.wordRead a n := State.wordRead_zero _ _
  refine ⟨if s.wordRead a n = 0 then id else State.scan service more (a + BitVec.ofNat 16 n + 1), fun h => if_pos h, ?_⟩
  rw [Nat.add_assoc, State.scan_run service hw rfl ha, State.scan_succ, State.wordRead_setOutput,
    State.afterRead_setOutput, State.afterReads_succ, hword]
  rfl

/-- A string ends at its zero word with the flush, where the host accepts all of it. -/
theorem State.scan_accepted (hz : s.wordRead a n = 0)
    (ha : s.acceptsAll ((s.sentWords service a n).length + 1) = true) :
    State.scan service words a s = (s.afterReads a (n + 1)).setOutput (s.sentWords service a n ++ [OutEvent.flush])
      (s.acceptsAfter ((s.sentWords service a n).length + 1)) := by
  obtain ⟨hsent, hflush⟩ := (s.acceptsAll_add (s.sentWords service a n) _ 1).mp ha
  obtain ⟨next, hnext, e⟩ := State.scan_at hn hw hsent
  have hflush : ((s.afterReads a (n + 1)).setOutput (s.sentWords service a n)
      (s.acceptsAfter (s.sentWords service a n).length)).acceptsAll 1 = true := hflush
  rw [e, hnext hz, loopEvents, if_pos hz, State.withOutput_accepted hflush, id, State.setOutput_setOutput]
  congr 1
  exact State.acceptsAfter_add s (s.sentWords service a n) _ 1

/-- A string ends in the failure of the first event that the host refuses, one of those at word `n`. -/
theorem State.scan_refused {k : Nat} (hk : s.accepts = some k) (hle : (s.sentWords service a n).length ≤ k)
    (hlt : k < (s.sentWords service a n).length + (loopEvents service (s.wordRead a n)).length) :
    State.scan service words a s = ((s.afterReads a (n + 1)).setOutput (s.sentWords service a n ++
      (loopEvents service (s.wordRead a n)).take (k - (s.sentWords service a n).length)) (some 0)).stop .ioFailure := by
  obtain ⟨next, -, e⟩ := State.scan_at hn hw (State.acceptsAll_of_le hk hle)
  have hleft : s.acceptsAfter (s.sentWords service a n).length =
      some (k - (s.sentWords service a n).length) := by simp [State.acceptsAfter, hk]
  rw [e, State.withOutput_refused hleft (by omega), State.setOutput_setOutput]

end

/-! What the reads of a string do at KBSR (R46, R48). -/

theorem State.wordRead_kbsr {s : State} {a : Word} {k : Nat} (hk : k < 65536)
    (e : a + BitVec.ofNat 16 k = s.params.kbsrAddr) :
    s.wordRead a k = s.poll.mem.readWord s.params.kbsrAddr := by
  rw [State.wordRead, State.memRead_value, ← State.afterReads_succ, State.afterReads_kbsr (by omega) (by omega) e, e]

/-- What the reads of a string of `n` words from R0 on and of the zero word after them do to memory and to the answers,
as the statements of PUTS and PUTSP say it of the state `t`: nothing where they pass by KBSR, one poll where they come
to it. -/
def StringReads (s : State) (n : Nat) (t : State) : Prop :=
  ((∀ k ≤ n, s.reg 0 + BitVec.ofNat 16 k ≠ s.params.kbsrAddr) →
    (∀ k ≤ n, s.wordRead (s.reg 0) k = s.mem.readWord (s.reg 0 + BitVec.ofNat 16 k)) ∧ KeepsMem s t ∧
      KeepsInput s t) ∧
  (∀ j < n, s.params.wf → s.reg 0 + BitVec.ofNat 16 j = s.params.kbsrAddr →
    s.wordRead (s.reg 0) j = 0x8000 ∧ KeepsInput s.takeAnswer t ∧
      ∃ b, s.nextAnswer = .byte b ∧ t.mem.readWord s.params.kbsrAddr = 0x8000 ∧
        t.mem.readWord s.params.kbdrAddr = b.setWidth 16) ∧
  (s.params.wf → s.reg 0 + BitVec.ofNat 16 n = s.params.kbsrAddr →
    KeepsInput s.takeAnswer t ∧ ∀ b, s.nextAnswer ≠ .byte b)

theorem stringReads {s : State} {n : Nat} (hn : n < 65536) (hw : ∀ k < n, s.wordRead (s.reg 0) k ≠ 0)
    (hz : s.wordRead (s.reg 0) n = 0) : StringReads s n (s.afterReads (s.reg 0) (n + 1)) := by
  refine ⟨fun hplain => ?_, fun j hj hwf e => ?_, fun hwf e => ?_⟩
  · rw [State.afterReads_plain fun k hk => hplain k (by omega)]
    exact ⟨fun k hk => State.wordRead_plain fun j hj => hplain j (by omega), fun _ => rfl, rfl, rfl⟩
  · have hword := State.wordRead_kbsr (by omega) e
    rw [State.afterReads_kbsr (Nat.lt_succ_of_lt hj) hn e]
    rcases s.poll_cases with ⟨b, hb, -⟩ | ⟨hb, -⟩
    · obtain ⟨hkbsr, hkbdr⟩ := State.poll_byte_words hwf hb
      exact ⟨hword.trans hkbsr, s.poll_input, b, hb, hkbsr, hkbdr⟩
    · exact absurd (hword.trans (State.poll_none_kbsr hb)) (hw j hj)
  · have hword := State.wordRead_kbsr hn e
    rw [State.afterReads_kbsr (Nat.lt_succ_self n) hn e]
    refine ⟨s.poll_input, fun b hb => ?_⟩
    have hready : (0x8000 : Word) = 0 := (State.poll_byte_words hwf hb).1.symm.trans (hword.symm.trans hz)
    exact absurd hready (by decide)

/-! The whole TRAP. -/

section
variable {s : State} {n : Nat} (hr : s.readable 0 = true) (hn : n < 65536)
  (hw : ∀ k < n, s.wordRead (s.reg 0) k ≠ 0)
include hr hn hw

/-- PUTS and PUTSP over a string that the host accepts whole. -/
theorem exec_stringTrap_accepted (service : StringService) (hz : s.wordRead (s.reg 0) n = 0)
    (ha : s.acceptsAll ((s.sentWords service (s.reg 0) n).length + 1) = true) :
    exec service.trap s = .next ((s.afterReads (s.reg 0) (n + 1)).link.setOutput
      (s.sentWords service (s.reg 0) n ++ [OutEvent.flush])
      (s.acceptsAfter ((s.sentWords service (s.reg 0) n).length + 1))) := by
  rw [exec_stringTrap_readable hr, State.scan_accepted (s := s.link) hn (by simpa using hw) (by simpa using hz)
    (by rw [State.sentWords_link]; exact ha), State.sentWords_link, State.afterReads_link]
  rfl

/-- PUTS and PUTSP where the host refuses an event of word `n`, or the flush if that word is zero. -/
theorem exec_stringTrap_refused (service : StringService) {k : Nat} (hk : s.accepts = some k)
    (hle : (s.sentWords service (s.reg 0) n).length ≤ k)
    (hlt : k < (s.sentWords service (s.reg 0) n).length + (loopEvents service (s.wordRead (s.reg 0) n)).length) :
    exec service.trap s = .next (((s.afterReads (s.reg 0) (n + 1)).link.setOutput
      (s.sentWords service (s.reg 0) n ++ (loopEvents service (s.wordRead (s.reg 0) n)).take
        (k - (s.sentWords service (s.reg 0) n).length)) (some 0)).stop .ioFailure) := by
  rw [exec_stringTrap_readable hr, State.scan_refused (s := s.link) hn (by simpa using hw) hk (by simpa using hle)
    (by simpa using hlt), State.sentWords_link, State.wordRead_link, State.afterReads_link]

end

theorem State.afterReads_link_onlyLinked (s : State) (a : Word) (n : Nat) : OnlyLinked s (s.afterReads a n).link := by
  rw [← State.afterReads_link]
  exact s.link_onlyLinked.afterReads a n

/-- Settles O38, from PUTS over a whole string and from what the reads of one do. -/
theorem putsWritesTheString : Obligations.PutsWritesTheString := by
  intro s n hr hn hw hz ha
  have hsent := s.sentWords_puts (s.reg 0) n
  have hlen : (s.sentWords .puts (s.reg 0) n).length = n := by simp [hsent]
  have hexec := exec_stringTrap_accepted hr hn hw .puts hz (by rw [hlen]; exact ha)
  rw [hlen, hsent] at hexec
  obtain ⟨h7, hcond, hpc, hregs⟩ := s.afterReads_link_onlyLinked (s.reg 0) (n + 1)
  exact ⟨_, hexec, by simp, rfl, h7, hcond, hpc, hregs, rfl, ⟨rfl, rfl⟩, by simp [KeepsRun], stringReads hn hw hz⟩

/-- Settles O41, as O38. -/
theorem putspWritesTheString : Obligations.PutspWritesTheString := by
  rintro s n sent hr hn hw hz rfl ha
  rw [← State.sentWords_putsp] at ha ⊢
  have hexec := exec_stringTrap_accepted hr hn hw .putsp hz ha
  obtain ⟨h7, hcond, hpc, hregs⟩ := s.afterReads_link_onlyLinked (s.reg 0) (n + 1)
  exact ⟨_, hexec, by simp, rfl, h7, hcond, hpc, hregs, rfl, ⟨rfl, rfl⟩, by simp [KeepsRun], stringReads hn hw hz⟩

theorem loopEvents_puts_length (w : Word) : (loopEvents .puts w).length = 1 := by
  rw [loopEvents, wordEvents_puts]
  split <;> rfl

/-- Settles O39: PUTS sends one event for each word, so after `k` it stands at word `k`. -/
theorem stringFailureKeepsWhatWasWritten : Obligations.StringFailureKeepsWhatWasWritten := by
  refine ⟨fun s k hr hlt hk hw => ?_, ?_⟩
  · have hsent := s.sentWords_puts (s.reg 0) k
    have hlen : (s.sentWords .puts (s.reg 0) k).length = k := by simp [hsent]
    have hexec := exec_stringTrap_refused hr hlt hw .puts hk (by omega) (by simp [hlen, loopEvents_puts_length])
    rw [hlen, hsent, Nat.sub_self, List.take_zero, List.append_nil] at hexec
    obtain ⟨h7, hcond, hpc, hregs⟩ := s.afterReads_link_onlyLinked (s.reg 0) (k + 1)
    exact ⟨_, hexec, rfl, by simp, h7, hcond, hpc, hregs, rfl⟩
  · rintro s n k sent next hr hn hk hw rfl hnext hle hlt
    have hnext : next = loopEvents .putsp (s.wordRead (s.reg 0) n) := by rw [hnext, loopEvents, wordEvents_putsp]
    subst hnext
    rw [← State.sentWords_putsp] at hle hlt ⊢
    have hexec := exec_stringTrap_refused hr hn hw .putsp hk hle hlt
    obtain ⟨h7, hcond, hpc, hregs⟩ := s.afterReads_link_onlyLinked (s.reg 0) (n + 1)
    exact ⟨_, hexec, rfl, by simp, h7, hcond, hpc, hregs, rfl⟩

/-! A whole pass over memory (R48; notes/assumptions/14.md). -/

/-- A pass whose poll finds no byte, or that sends more than the host accepts, marks no hold. -/
theorem State.pass_ends (service : StringService) {words : Nat} (hwords : words = 65536) (a : Word) {s : State}
    (h : (∀ b, s.nextAnswer ≠ .byte b) ∨ ∃ k, s.accepts = some k ∧ k < 65536) :
    (State.scan service words a s).hold = s.hold := by
  rcases s.scan_cases service words a with e | ⟨sent, -, hw, haccepts, hlen, -⟩
  · exact e
  · rcases h with hnone | ⟨k, hk, hlt⟩
    · obtain ⟨b, hb⟩ := State.pass_byte hwords hw
      exact absurd hb (hnone b)
    · have := (s.acceptsAll_iff _).mp haccepts k hk
      omega

theorem State.putString_ends (service : StringService) {s : State}
    (h : (∀ b, s.nextAnswer ≠ .byte b) ∨ ∃ k, s.accepts = some k ∧ k < 65536) :
    (s.putString service).hold = s.hold := by
  cases hr : s.readable 0 with
  | true => rw [State.putString_readable hr, State.pass_ends service rfl _ h]
  | false => rw [State.putString, State.withReg_unwritten hr, State.stop_hold]

/-- Settles O54: each of the three passes starts from a state that holds for nothing. -/
theorem stringsEndWhereAPollFindsNothing : Obligations.StringsEndWhereAPollFindsNothing := by
  intro s h
  refine ⟨fun hhold => ?_, fun service a hrun hhold => ?_⟩
  · have hend (service : StringService) : (s.link.putString service).hold = none :=
      (State.putString_ends (s := s.link) service h).trans hhold
    exact ⟨⟨_, exec_stringTrap .puts s, hend .puts⟩, ⟨_, exec_stringTrap .putsp s, hend .putsp⟩⟩
  · have hstep := step_held hrun hhold
    rw [State.resume_string] at hstep
    exact ⟨_, hstep, State.pass_ends (s := s.setHold none) service rfl a h⟩

/-- A pass that marks a hold read no zero word, got a byte in its one poll, and leaves the state from which its loop
goes on at the address where it started. -/
theorem State.pass_holds {service : StringService} {words : Nat} (hwords : words = 65536) {a : Word} {s t : State}
    {hd : Hold} (hs : s.hold = none) (ht : State.scan service words a s = t) (hhold : t.hold = some hd) :
    hd = .string service a ∧ (∀ k < words, s.wordRead a k ≠ 0) ∧ (∃ b, s.nextAnswer = .byte b) ∧
      KeepsInput s.takeAnswer t ∧
      ∀ more, State.scan service (words + more) a s = State.scan service more a (t.setHold none) := by
  have hround : a + BitVec.ofNat 16 words = a := by rw [hwords]; exact BitVec.add_zero a
  rcases s.scan_cases service words a with e | ⟨sent, hsent, hw, haccepts, -, e⟩
  · simp [← ht, e, hs] at hhold
  · rw [ht, hround] at e
    have hpolled : s.afterReads a words = s.poll := by
      obtain ⟨j, hj, hkbsr⟩ := exists_offset a s.params.kbsrAddr
      exact State.afterReads_kbsr (hwords ▸ hj) (Nat.le_of_eq hwords) hkbsr
    have hcleared : t.setHold none = (s.afterReads a words).setOutput sent (s.acceptsAfter sent.length) := by
      rw [e]
      exact State.setHold_self (s := (s.afterReads a words).setOutput sent _) (by simpa using hs)
    refine ⟨?_, hw, State.pass_byte hwords hw, ?_, fun more => ?_⟩
    · rw [e] at hhold
      exact (Option.some.inj hhold).symm
    · rw [e, hpolled]
      exact s.poll_input
    · rw [State.scan_run service hw hsent haccepts, hround, hcleared]

/-- Settles O55: the link write is before the pass, and a held core's step is the next pass. -/
theorem heldStringGoesOnWithItsLoop : Obligations.HeldStringGoesOnWithItsLoop := by
  intro s t hd service hrun hhold hthold hexec
  have htrap : exec service.trap s = .next t := by cases service <;> exact hexec
  have htrun : t.run = .running := exec_holdRunning htrap ⟨hrun, hhold⟩ (by simp [hthold])
  cases hr : s.readable 0 with
  | false =>
    have hstop : s.link.putString service = s.link.stop (.unwrittenRegister 0) :=
      State.withReg_unwritten (by simp [State.link_readable, hr]) _
    rw [exec_stringTrap, hstop] at htrap
    cases htrap
    cases htrun
  | true =>
    have hpass := Host.Outcome.next.inj ((exec_stringTrap_readable hr service).symm.trans htrap)
    obtain ⟨rfl, hw, hbyte, hinput, hmore⟩ := State.pass_holds (s := s.link) rfl hhold hpass hthold
    refine ⟨rfl, fun k hk => State.wordRead_link s _ k ▸ hw k hk, hbyte, ?_, hmore, ?_⟩
    · rw [State.takeAnswer_link] at hinput
      exact hinput
    · rw [step_held htrun hthold, State.resume_string]

end Sys2Proof.Machine

/-! PROOFS. The statements of the family 30_encoding: the decoder and the encoder undo each other, the ignored bits are
ignored, and the opcode table has one row for every word; JMP. -/

namespace Sys2Proof

open Laws.EncodesRow (word_ext)

/-! Bits and fields of a word (R70, R71, R73). -/

theorem field_eq_of_masked {v w m : Word} (h : v &&& m = w &&& m) {lo n : Nat}
    (hm : m.extractLsb' lo n = BitVec.allOnes n) : v.extractLsb' lo n = w.extractLsb' lo n := by
  have hfield := congrArg (BitVec.extractLsb' lo n) h
  simpa only [BitVec.extractLsb'_and, hm, BitVec.and_allOnes] using hfield

theorem bit_eq_of_masked {v w m : Word} (h : v &&& m = w &&& m) {k : Nat} (hm : m.getLsbD k = true) :
    v.getLsbD k = w.getLsbD k := by
  have hbit := congrArg (·.getLsbD k) h
  simpa only [BitVec.getLsbD_and, hm, Bool.and_true] using hbit

@[simp] theorem regBits_regField (w : Word) (lo : Nat) : regBits (regField w lo) = w.extractLsb' lo 3 := rfl

/-- The value of `ir[15:12]` that selects an opcode: its place in the list of R72. -/
def Opcode.bits : Opcode → BitVec 4
  | .br => 0x0 | .add => 0x1 | .ld => 0x2 | .st => 0x3 | .jsr => 0x4 | .and => 0x5 | .ldr => 0x6 | .str => 0x7
  | .rti => 0x8 | .not => 0x9 | .ldi => 0xA | .sti => 0xB | .jmp => 0xC | .res => 0xD | .lea => 0xE | .trap => 0xF

theorem opcodeOf_eq_opcodeOf_field (w : Word) : opcodeOf w = opcodeOf (w.extractLsb' 12 4 ++ 0#12) := by
  simp only [opcodeOf, BitVec.getLsbD_append, BitVec.getLsbD_extractLsb']
  rfl

theorem opcodeField_eq_bits (w : Word) : w.extractLsb' 12 4 = (opcodeOf w).bits := by
  have hbits : ∀ x : BitVec 4, x = (opcodeOf (x ++ 0#12)).bits := by decide
  rw [opcodeOf_eq_opcodeOf_field]
  exact hbits _

/-! The trap codes (R85, R170). -/

theorem isServiceCode_iff (code : BitVec 8) : isServiceCode code = true ↔
    code = 0x20 ∨ code = 0x21 ∨ code = 0x22 ∨ code = 0x23 ∨ code = 0x24 ∨ code = 0x25 := by
  simp only [isServiceCode, Bool.and_eq_true, decide_eq_true_eq]
  bv_omega

theorem decodeTrap_unknown {code : BitVec 8} (h : isServiceCode code = false) :
    decodeTrap code = .trapUnknown code := by
  rw [← Bool.not_eq_true, isServiceCode_iff] at h
  simp only [not_or] at h
  simp only [decodeTrap, h, if_false]

theorem decodeTrap_wellFormed (code : BitVec 8) : (decodeTrap code).WellFormed = true := by
  cases h : isServiceCode code with
  | false => simp [decodeTrap_unknown h, Instr.WellFormed, h]
  | true => rcases (isServiceCode_iff code).1 h with rfl | rfl | rfl | rfl | rfl | rfl <;> rfl

theorem encode_decodeTrap (code : BitVec 8) : encode (decodeTrap code) = encodeTrap code := by
  cases h : isServiceCode code with
  | false => rw [decodeTrap_unknown h, encode]
  | true => rcases (isServiceCode_iff code).1 h with rfl | rfl | rfl | rfl | rfl | rfl <;> rfl

theorem decodeTrap_ignoredBits (code : BitVec 8) : (decodeTrap code).ignoredBits = 0x0F00 := by
  cases h : isServiceCode code with
  | false => rw [decodeTrap_unknown h, Instr.ignoredBits]
  | true => rcases (isServiceCode_iff code).1 h with rfl | rfl | rfl | rfl | rfl | rfl <;> rfl

/-! What the word of each format holds in its fields (R76 to R86). -/

theorem encodeOpr_fields (op : BitVec 4) (dr sr1 sr2 : Reg) :
    (encodeOpr op dr sr1 sr2).extractLsb' 12 4 = op ∧ regField (encodeOpr op dr sr1 sr2) 9 = dr ∧
      regField (encodeOpr op dr sr1 sr2) 6 = sr1 ∧ (encodeOpr op dr sr1 sr2).getLsbD 5 = false ∧
      regField (encodeOpr op dr sr1 sr2) 0 = sr2 := by
  simp (disch := decide) only [encodeOpr, regField, BitVec.extractLsb'_append_eq_of_le,
    BitVec.extractLsb'_append_eq_of_add_le, BitVec.extractLsb'_eq_self, BitVec.getLsbD_append, Nat.reduceSub]
  simp [regBits]

theorem encodeOpi_fields (op : BitVec 4) (dr sr1 : Reg) (imm5 : BitVec 5) :
    (encodeOpi op dr sr1 imm5).extractLsb' 12 4 = op ∧ regField (encodeOpi op dr sr1 imm5) 9 = dr ∧
      regField (encodeOpi op dr sr1 imm5) 6 = sr1 ∧ (encodeOpi op dr sr1 imm5).getLsbD 5 = true ∧
      (encodeOpi op dr sr1 imm5).extractLsb' 0 5 = imm5 := by
  simp (disch := decide) only [encodeOpi, regField, BitVec.extractLsb'_append_eq_of_le,
    BitVec.extractLsb'_append_eq_of_add_le, BitVec.extractLsb'_eq_self, BitVec.getLsbD_append, Nat.reduceSub]
  simp [regBits]

theorem encodePcr_fields (op : BitVec 4) (r : Reg) (off : BitVec 9) :
    (encodePcr op r off).extractLsb' 12 4 = op ∧ regField (encodePcr op r off) 9 = r ∧
      (encodePcr op r off).extractLsb' 0 9 = off := by
  simp (disch := decide) only [encodePcr, regField, BitVec.extractLsb'_append_eq_of_le,
    BitVec.extractLsb'_append_eq_of_add_le, BitVec.extractLsb'_eq_self, Nat.reduceSub]
  simp [regBits]

theorem encodeBof_fields (op : BitVec 4) (r base : Reg) (off : BitVec 6) :
    (encodeBof op r base off).extractLsb' 12 4 = op ∧ regField (encodeBof op r base off) 9 = r ∧
      regField (encodeBof op r base off) 6 = base ∧ (encodeBof op r base off).extractLsb' 0 6 = off := by
  simp (disch := decide) only [encodeBof, regField, BitVec.extractLsb'_append_eq_of_le,
    BitVec.extractLsb'_append_eq_of_add_le, BitVec.extractLsb'_eq_self, Nat.reduceSub]
  simp [regBits]

theorem encodeTrap_fields (code : BitVec 8) :
    (encodeTrap code).extractLsb' 12 4 = 0xF ∧ (encodeTrap code).extractLsb' 0 8 = code := by
  simp (disch := decide) only [encodeTrap, BitVec.extractLsb'_append_eq_of_le,
    BitVec.extractLsb'_append_eq_of_add_le, BitVec.extractLsb'_eq_self, Nat.reduceSub]
  simp

theorem encode_br_fields (n z p : Bool) (off : BitVec 9) :
    (encode (.br n z p off)).extractLsb' 12 4 = 0x0 ∧ (encode (.br n z p off)).getLsbD 11 = n ∧
      (encode (.br n z p off)).getLsbD 10 = z ∧ (encode (.br n z p off)).getLsbD 9 = p ∧
      (encode (.br n z p off)).extractLsb' 0 9 = off := by
  simp (disch := decide) only [encode, BitVec.extractLsb'_append_eq_of_le,
    BitVec.extractLsb'_append_eq_of_add_le, BitVec.extractLsb'_eq_self, BitVec.getLsbD_append, Nat.reduceSub]
  simp

theorem encode_jsr_fields (off : BitVec 11) :
    (encode (.jsr off)).extractLsb' 12 4 = 0x4 ∧ (encode (.jsr off)).getLsbD 11 = true ∧
      (encode (.jsr off)).extractLsb' 0 11 = off := by
  simp (disch := decide) only [encode, BitVec.extractLsb'_append_eq_of_le,
    BitVec.extractLsb'_append_eq_of_add_le, BitVec.extractLsb'_eq_self, BitVec.getLsbD_append, Nat.reduceSub]
  simp

theorem encode_jsrr_fields (base : Reg) :
    (encode (.jsrr base)).extractLsb' 12 4 = 0x4 ∧ (encode (.jsrr base)).getLsbD 11 = false ∧
      regField (encode (.jsrr base)) 6 = base := by
  simp (disch := decide) only [encode, regField, BitVec.extractLsb'_append_eq_of_le,
    BitVec.extractLsb'_append_eq_of_add_le, BitVec.extractLsb'_eq_self, BitVec.getLsbD_append, Nat.reduceSub]
  simp [regBits]

/-- JMP's word lies as the format of R84 does, with zeros in the fields it does not have. -/
theorem encode_jmp (base : Reg) : encode (.jmp base) = encodeBof 0xC 0 base 0 := rfl

/-- So does NOT's. -/
theorem encode_not (dr sr : Reg) : encode (.not dr sr) = encodeBof 0x9 dr sr 0 := rfl

/-! Decoding what the encoder writes. -/

/-- Each format's word has the opcode and the selector bits of its instruction, and the operands in their fields. -/
theorem decode_encode {i : Instr} (hwf : i.WellFormed = true) : decode (encode i) = i := by
  rw [decode, opcodeOf_eq_opcodeOf_field]
  cases i
  case br n z p off => simp only [encode_br_fields]; rfl
  case addReg dr sr1 sr2 | andReg dr sr1 sr2 => simp only [encode, encodeOpr_fields]; rfl
  case addImm dr sr1 imm5 | andImm dr sr1 imm5 => simp only [encode, encodeOpi_fields]; rfl
  case ld r off | st r off | ldi r off | sti r off | lea r off => simp only [encode, encodePcr_fields]; rfl
  case jsr off => simp only [encode_jsr_fields]; rfl
  case jsrr base => simp only [encode_jsrr_fields]; rfl
  case ldr r base off | str r base off => simp only [encode, encodeBof_fields]; rfl
  case not dr sr => simp only [encode_not, encodeBof_fields]; rfl
  case jmp base => simp only [encode_jmp, encodeBof_fields]; rfl
  case rti | res | trapGetc | trapOut | trapPuts | trapIn | trapPutsp | trapHalt => rfl
  case trapUnknown code =>
    have hcode : isServiceCode code = false := by simpa [Instr.WellFormed] using hwf
    simp only [encode, encodeTrap_fields]
    exact decodeTrap_unknown hcode

/-! Encoding what the decoder reads. -/

section
variable {w : Word} {op : BitVec 4}

theorem encodeOpr_of_fields (hop : w.extractLsb' 12 4 = op) (h5 : w[5] = false) :
    encodeOpr op (regField w 9) (regField w 6) (regField w 0) = w &&& ~~~0x0018#16 := by
  subst hop
  refine word_ext fun i => ?_
  simp only [encodeOpr, regBits_regField, BitVec.getLsbD_append, BitVec.getLsbD_extractLsb', BitVec.getLsbD_and]
  fin_cases i <;> simp [h5]

theorem encodeOpi_of_fields (hop : w.extractLsb' 12 4 = op) (h5 : w[5] = true) :
    encodeOpi op (regField w 9) (regField w 6) (w.extractLsb' 0 5) = w &&& ~~~0x0000#16 := by
  subst hop
  refine word_ext fun i => ?_
  simp only [encodeOpi, regBits_regField, BitVec.getLsbD_append, BitVec.getLsbD_extractLsb', BitVec.getLsbD_and]
  fin_cases i <;> simp [h5]

theorem encodePcr_of_fields (hop : w.extractLsb' 12 4 = op) :
    encodePcr op (regField w 9) (w.extractLsb' 0 9) = w &&& ~~~0x0000#16 := by
  subst hop
  refine word_ext fun i => ?_
  simp only [encodePcr, regBits_regField, BitVec.getLsbD_append, BitVec.getLsbD_extractLsb', BitVec.getLsbD_and]
  fin_cases i <;> simp

theorem encodeBof_of_fields (hop : w.extractLsb' 12 4 = op) :
    encodeBof op (regField w 9) (regField w 6) (w.extractLsb' 0 6) = w &&& ~~~0x0000#16 := by
  subst hop
  refine word_ext fun i => ?_
  simp only [encodeBof, regBits_regField, BitVec.getLsbD_append, BitVec.getLsbD_extractLsb', BitVec.getLsbD_and]
  fin_cases i <;> simp

theorem encodeTrap_of_fields (hop : w.extractLsb' 12 4 = 0xF) :
    encodeTrap (w.extractLsb' 0 8) = w &&& ~~~0x0F00#16 := by
  refine word_ext fun i => ?_
  simp only [encodeTrap, show 0xF#4 = _ from hop.symm, BitVec.getLsbD_append, BitVec.getLsbD_extractLsb',
    BitVec.getLsbD_and]
  fin_cases i <;> simp

theorem encode_br_of_fields (hop : w.extractLsb' 12 4 = 0x0) :
    encode (.br (w.getLsbD 11) (w.getLsbD 10) (w.getLsbD 9) (w.extractLsb' 0 9)) = w &&& ~~~0x0000#16 := by
  refine word_ext fun i => ?_
  simp only [encode, show 0x0#4 = _ from hop.symm, BitVec.getLsbD_append, BitVec.getLsbD_extractLsb',
    BitVec.getLsbD_and]
  fin_cases i <;> simp

theorem encode_jsr_of_fields (hop : w.extractLsb' 12 4 = 0x4) (h11 : w[11] = true) :
    encode (.jsr (w.extractLsb' 0 11)) = w &&& ~~~0x0000#16 := by
  refine word_ext fun i => ?_
  simp only [encode, show 0x4#4 = _ from hop.symm, BitVec.getLsbD_append, BitVec.getLsbD_extractLsb',
    BitVec.getLsbD_and]
  fin_cases i <;> simp [h11]

theorem encode_jsrr_of_fields (hop : w.extractLsb' 12 4 = 0x4) (h11 : w[11] = false) :
    encode (.jsrr (regField w 6)) = w &&& ~~~0x063F#16 := by
  refine word_ext fun i => ?_
  simp only [encode, show 0x4#4 = _ from hop.symm, regBits_regField, BitVec.getLsbD_append,
    BitVec.getLsbD_extractLsb', BitVec.getLsbD_and]
  fin_cases i <;> simp [h11]

theorem encode_not_of_fields (hop : w.extractLsb' 12 4 = 0x9) :
    encode (.not (regField w 9) (regField w 6)) = w &&& ~~~0x003F#16 := by
  refine word_ext fun i => ?_
  simp only [encode, show 0x9#4 = _ from hop.symm, regBits_regField, BitVec.getLsbD_append,
    BitVec.getLsbD_extractLsb', BitVec.getLsbD_and]
  fin_cases i <;> simp

theorem encode_jmp_of_fields (hop : w.extractLsb' 12 4 = 0xC) :
    encode (.jmp (regField w 6)) = w &&& ~~~0x0E3F#16 := by
  refine word_ext fun i => ?_
  simp only [encode, show 0xC#4 = _ from hop.symm, regBits_regField, BitVec.getLsbD_append,
    BitVec.getLsbD_extractLsb', BitVec.getLsbD_and]
  fin_cases i <;> simp

/-- The two reserved opcodes ignore every bit below the opcode (R86). -/
theorem encode_reserved_of_field (hop : w.extractLsb' 12 4 = op) :
    op ++ 0#12 = w &&& ~~~0x0FFF#16 := by
  subst hop
  refine word_ext fun i => ?_
  simp only [BitVec.getLsbD_append, BitVec.getLsbD_extractLsb', BitVec.getLsbD_and]
  fin_cases i <;> simp
end

/-- For each opcode, the fields that `decode` reads make up the word but for its ignored bits. -/
theorem encode_decode (w : Word) : encode (decode w) = w &&& ~~~(decode w).ignoredBits := by
  have hop := opcodeField_eq_bits w
  cases h : opcodeOf w <;> rw [h] at hop <;> simp only [decode, h]
  case br => exact encode_br_of_fields hop
  case add | and =>
    cases h5 : w.getLsbD 5
    · exact encodeOpr_of_fields hop h5
    · exact encodeOpi_of_fields hop h5
  case ld | st | ldi | sti | lea => exact encodePcr_of_fields hop
  case jsr =>
    cases h11 : w.getLsbD 11
    · exact encode_jsrr_of_fields hop h11
    · exact encode_jsr_of_fields hop h11
  case ldr | str => exact encodeBof_of_fields hop
  case rti | res => exact encode_reserved_of_field hop
  case not => exact encode_not_of_fields hop
  case jmp => exact encode_jmp_of_fields hop
  case trap => rw [encode_decodeTrap, decodeTrap_ignoredBits]; exact encodeTrap_of_fields hop

theorem decode_wellFormed (w : Word) : (decode w).WellFormed = true := by
  cases h : opcodeOf w <;> simp only [decode, h]
  case add | and => cases w.getLsbD 5 <;> rfl
  case jsr => cases w.getLsbD 11 <;> rfl
  case trap => exact decodeTrap_wellFormed _
  all_goals rfl

/-! Ignored bits (R87). -/

theorem ignoredBits_opcodeField (i : Instr) : (~~~i.ignoredBits).extractLsb' 12 4 = BitVec.allOnes 4 := by
  cases i <;> simp only [Instr.ignoredBits] <;> decide

/-- Which bits a word's instruction ignores hangs on bits that it does not ignore: its opcode and its selector. -/
theorem ignoredBits_decode_congr {v w : Word}
    (h : v &&& ~~~(decode w).ignoredBits = w &&& ~~~(decode w).ignoredBits) :
    (decode v).ignoredBits = (decode w).ignoredBits := by
  have hop : opcodeOf v = opcodeOf w := by
    rw [opcodeOf_eq_opcodeOf_field v, field_eq_of_masked h (ignoredBits_opcodeField _), ← opcodeOf_eq_opcodeOf_field]
  cases hw : opcodeOf w <;> rw [hw] at hop <;> simp only [decode, hop, hw] at h ⊢
  case add | and =>
    have h5 : v.getLsbD 5 = w.getLsbD 5 := bit_eq_of_masked h (by cases w.getLsbD 5 <;> simp [Instr.ignoredBits])
    rw [h5]
    cases w.getLsbD 5 <;> rfl
  case jsr =>
    have h11 : v.getLsbD 11 = w.getLsbD 11 :=
      bit_eq_of_masked h (by cases w.getLsbD 11 <;> simp [Instr.ignoredBits])
    rw [h11]
    cases w.getLsbD 11 <;> rfl
  case trap => simp only [decodeTrap_ignoredBits]
  all_goals rfl

/-- The two words decode to instructions of one encoding, and decoding undoes encoding. -/
theorem decode_congr {v w : Word} (h : v &&& ~~~(decode w).ignoredBits = w &&& ~~~(decode w).ignoredBits) :
    decode v = decode w := by
  have hword : encode (decode v) = encode (decode w) := by
    rw [encode_decode, encode_decode, ignoredBits_decode_congr h, h]
  calc decode v = decode (encode (decode v)) := (decode_encode (decode_wellFormed v)).symm
    _ = decode (encode (decode w)) := by rw [hword]
    _ = decode w := decode_encode (decode_wellFormed w)

/-! The opcode table (R88). -/

theorem Row.covers_iff {r : Row} {w : Word} : r.covers w = true ↔ w &&& r.mask = r.value := by
  simp [Row.covers]

open Laws.EncodesRow in
theorem encode_row (i : Instr) : encode i &&& i.row.mask = i.row.value :=
  match i with
  | .br n z p off => br n z p off
  | .addReg dr sr1 sr2 => addReg dr sr1 sr2
  | .addImm dr sr1 imm5 => addImm dr sr1 imm5
  | .ld dr off => ld dr off
  | .st sr off => st sr off
  | .jsr off => jsr off
  | .jsrr base => jsrr base
  | .andReg dr sr1 sr2 => andReg dr sr1 sr2
  | .andImm dr sr1 imm5 => andImm dr sr1 imm5
  | .ldr dr base off => ldr dr base off
  | .str sr base off => str sr base off
  | .rti => rti
  | .not dr sr => not dr sr
  | .ldi dr off => ldi dr off
  | .sti sr off => sti sr off
  | .jmp base => jmp base
  | .res => res
  | .lea dr off => lea dr off
  | .trapGetc => trapGetc
  | .trapOut => trapOut
  | .trapPuts => trapPuts
  | .trapIn => trapIn
  | .trapPutsp => trapPutsp
  | .trapHalt => trapHalt
  | .trapUnknown code => trapUnknown code

/-- No row asks for an ignored bit. -/
theorem row_mask_not_ignored (i : Instr) : ~~~i.ignoredBits &&& i.row.mask = i.row.mask := by
  cases i <;> simp only [Instr.ignoredBits, Instr.row, unknownTrapRow] <;> decide

/-- The encoder's word lies in its instruction's row, and the ignored bits are not asked for. -/
theorem decode_row_covers (w : Word) : (decode w).row.covers w = true := by
  rw [Row.covers_iff, ← encode_row, encode_decode, BitVec.and_assoc, row_mask_not_ignored]

/-- Any two rows of the table but its last differ in a bit that both ask for. -/
theorem opcodeRows_differ : ∀ r ∈ opcodeRows, ∀ r' ∈ opcodeRows,
    r.value &&& r'.mask = r'.value &&& r.mask → r = r' := by decide

/-- Two rows that cover one word agree in the bits that both ask for. -/
theorem Row.values_agree {r r' : Row} {w : Word} (h : w &&& r.mask = r.value) (h' : w &&& r'.mask = r'.value) :
    r.value &&& r'.mask = r'.value &&& r.mask := by
  rw [← h, ← h', BitVec.and_assoc, BitVec.and_assoc, BitVec.and_comm r.mask]

theorem row_eq_of_covers {r r' : Row} {w : Word} (hr : r ∈ opcodeRows) (hr' : r' ∈ opcodeRows)
    (h : r.covers w = true) (h' : r'.covers w = true) : r = r' :=
  opcodeRows_differ r hr r' hr' (Row.values_agree (Row.covers_iff.1 h) (Row.covers_iff.1 h'))

theorem filter_covers_eq {r : Row} {w : Word} (hr : r ∈ opcodeRows) (h : r.covers w = true) :
    opcodeRows.filter (·.covers w) = [r] := by
  have hsame : ∀ r' ∈ opcodeRows, r'.covers w = (r' == r) := fun r' hr' => by
    rw [Bool.eq_iff_iff, beq_iff_eq]
    exact ⟨fun h' => row_eq_of_covers hr' hr h' h, fun e => e ▸ h⟩
  rw [List.filter_congr hsame, List.filter_beq, List.count_eq_one_of_mem (by decide) hr, List.replicate_one]

/-- A row but the last that meets the last row's words is the row of a service code. -/
theorem opcodeRows_service : ∀ r ∈ opcodeRows, r.value &&& unknownTrapRow.mask = unknownTrapRow.value &&& r.mask →
    r.mask = 0xF0FF ∧ isServiceCode (r.value.extractLsb' 0 8) = true := by decide

/-- No row but the last takes a word that decodes to an unknown code: a row it shared with the last would be that of a
service, whose code the decoder would have found. -/
theorem filter_covers_unknown {code : BitVec 8} {w : Word} (hw : decode w = .trapUnknown code) :
    opcodeRows.filter (·.covers w) = [] := by
  have hcode : isServiceCode code = false := by simpa [hw, Instr.WellFormed] using decode_wellFormed w
  have hlast : w &&& unknownTrapRow.mask = unknownTrapRow.value := by
    simpa only [hw, Instr.row, Row.covers_iff] using decode_row_covers w
  refine List.filter_eq_nil_iff.2 fun r hr h => ?_
  rw [Row.covers_iff] at h
  obtain ⟨hmask, hservice⟩ := opcodeRows_service r hr (Row.values_agree h hlast)
  have hword : encodeTrap code = r.value := by
    calc encodeTrap code = encode (decode w) := by rw [hw, encode]
      _ = w &&& ~~~(decode w).ignoredBits := encode_decode w
      _ = w &&& r.mask := by rw [hw, hmask, Instr.ignoredBits]; rfl
      _ = r.value := h
  rw [← hword, (encodeTrap_fields code).2, hcode] at hservice
  cases hservice

theorem row_mem_or_unknown (i : Instr) : i.row ∈ opcodeRows ∨ ∃ code, i = .trapUnknown code := by
  cases i <;> simp [Instr.row, opcodeRows]

theorem matchingRows_eq (w : Word) : matchingRows w = [(decode w).row] := by
  rcases row_mem_or_unknown (decode w) with hmem | ⟨code, hw⟩
  · rw [matchingRows, filter_covers_eq hmem (decode_row_covers w)]
  · have hlast : unknownTrapRow.covers w = true := by simpa only [hw, Instr.row] using decode_row_covers w
    rw [matchingRows, filter_covers_unknown hw, hw]
    simp [hlast, Instr.row]

/-! The obligations. -/

/-- Settles O4, format by format. -/
theorem decodeOfEncode : Obligations.DecodeOfEncode := fun _ hwf => decode_encode hwf

/-- Settles O5, opcode by opcode. -/
theorem encodeOfDecode : Obligations.EncodeOfDecode := fun w => ⟨decode_wellFormed w, encode_decode w⟩

/-- Settles O6: equal but for ignored bits, the two words have one encoding. -/
theorem ignoredBitsDoNotDecode : Obligations.IgnoredBitsDoNotDecode := fun _ _ h => decode_congr h

/-- Settles O7: the row of the decoded instruction covers the word, and no two rows do. -/
theorem everyWordMatchesItsOneRow : Obligations.EveryWordMatchesItsOneRow := matchingRows_eq

/-- Settles O3, by evaluating the decoder on the twenty words. -/
theorem specWordsDecode : Obligations.SpecWordsDecode := by
  unfold Obligations.SpecWordsDecode
  decide

end Sys2Proof

namespace Sys2Proof.Machine

/-- JMP goes to its base's value (R122). -/
theorem exec_jmp {base : Reg} {s : State} (h : s.readable base = true) :
    exec (.jmp base) s = .next (s.setPc (s.reg base)) :=
  congrArg _ (State.withReg_readable h _)

/-- Settles O23: a readable base is the one thing JMP reads, and PC the one thing it writes. -/
theorem jumpToBase : Obligations.JumpToBase := fun _ s h =>
  ⟨_, exec_jmp h, rfl, rfl, .refl [] s, fun _ => rfl, ⟨⟨rfl, rfl⟩, rfl, rfl⟩, rfl, rfl, rfl⟩

end Sys2Proof.Machine

/-! PROOFS. The statements of the family 40_operate: ADD, AND and NOT. Each is one write of its destination, so what
that write does and leaves unchanged is said once, for any instruction. -/

namespace Sys2Proof.Machine

/-! The write of a destination (R20, R30). -/

/-- Only the destination and COND are written. -/
theorem setDest_frame (s : State) (dr : Reg) (v : Word) : KeepsAllButRegs [dr] s (s.setDest dr v) :=
  ⟨(KeepsRegs.refl [dr] s).setReg (by simp) v, fun _ => rfl, ⟨⟨rfl, rfl⟩, rfl, rfl⟩, rfl, rfl, rfl⟩

/-- What an instruction does that is no more than the write of its destination. -/
theorem exec_setDest {i : Instr} {dr : Reg} {v : Word} {s : State} (h : exec i s = .next (s.setDest dr v)) :
    ∃ t, exec i s = .next t ∧ t.reg dr = v ∧ t.cond = condOf v ∧ t.pc = s.pc ∧ KeepsAllButRegs [dr] s t :=
  ⟨_, h, s.setDest_reg_self dr v, s.setDest_cond dr v, s.setDest_pc dr v, setDest_frame s dr v⟩

/-! The operate instructions with readable sources (R100 to R104). -/

section
variable {s : State} {sr1 : Reg} (h1 : s.readable sr1 = true) (dr : Reg)
include h1

theorem exec_addImm (imm5 : BitVec 5) :
    exec (.addImm dr sr1 imm5) s = .next (s.setDest dr (s.reg sr1 + imm5.signExtend 16)) := by
  rw [← sext_eq_signExtend]
  exact congrArg _ (State.withReg_readable h1 _)

theorem exec_andImm (imm5 : BitVec 5) :
    exec (.andImm dr sr1 imm5) s = .next (s.setDest dr (s.reg sr1 &&& imm5.signExtend 16)) := by
  rw [← sext_eq_signExtend]
  exact congrArg _ (State.withReg_readable h1 _)

theorem exec_not : exec (.not dr sr1) s = .next (s.setDest dr (~~~(s.reg sr1))) :=
  congrArg _ (State.withReg_readable h1 _)

variable {sr2 : Reg} (h2 : s.readable sr2 = true)
include h2

/-- Two register reads in a row go on where both registers are readable. -/
theorem State.withReg_withReg_readable (next : Word → Word → State) :
    (s.withReg sr1 fun a => s.withReg sr2 fun b => next a b) = next (s.reg sr1) (s.reg sr2) := by
  rw [State.withReg_readable h1, State.withReg_readable h2]

theorem exec_addReg : exec (.addReg dr sr1 sr2) s = .next (s.setDest dr (s.reg sr1 + s.reg sr2)) :=
  congrArg _ (State.withReg_withReg_readable h1 h2 _)

theorem exec_andReg : exec (.andReg dr sr1 sr2) s = .next (s.setDest dr (s.reg sr1 &&& s.reg sr2)) :=
  congrArg _ (State.withReg_withReg_readable h1 h2 _)

end

/-- Settles O16: both sources are read before the sum is written, so DR may be one of them. -/
theorem addRegisterForm : Obligations.AddRegisterForm := fun dr _ _ _ h1 h2 => exec_setDest (exec_addReg h1 dr h2)

/-- Settles O17: the immediate is sign-extended by the formula of R12. -/
theorem addImmediateForm : Obligations.AddImmediateForm := fun dr _ imm5 _ h => exec_setDest (exec_addImm h dr imm5)

/-- Settles O18, as O16. -/
theorem andRegisterForm : Obligations.AndRegisterForm := fun dr _ _ _ h1 h2 => exec_setDest (exec_andReg h1 dr h2)

/-- Settles O19, as O17. -/
theorem andImmediateForm : Obligations.AndImmediateForm := fun dr _ imm5 _ h => exec_setDest (exec_andImm h dr imm5)

/-- Settles O20: the source is read before its complement is written, so DR may be the source. -/
theorem notComplements : Obligations.NotComplements := fun dr _ _ h => exec_setDest (exec_not h dr)

end Sys2Proof.Machine

/-! PROOFS. The statements of the family 41_control: BR and JSR. Each ends in a write of PC at an offset from the
incremented PC, BR's only where the branch is taken. -/

namespace Sys2Proof.Machine

/-- A jump writes PC, and nothing else. -/
theorem setPc_frame (s : State) (target : Word) : KeepsAllButRegs [] s (s.setPc target) :=
  ⟨.refl [] s, fun _ => rfl, ⟨⟨rfl, rfl⟩, rfl, rfl⟩, rfl, rfl, rfl⟩

/-- The target of BR and JSR in the words of the statements (R140). -/
theorem State.pcRelative_eq (s : State) {n : Nat} (offset : BitVec n) :
    s.pcRelative offset = s.pc + offset.signExtend 16 :=
  congrArg (s.pc + ·) (sext_eq_signExtend offset)

/-- R120: COND is one flag, and the branch is taken where the bit of that flag is set. -/
theorem branchTaken_iff {n z p : Bool} {c : Cond} :
    branchTaken n z p c = true ↔ (n = true ∧ c = .n) ∨ (z = true ∧ c = .z) ∨ (p = true ∧ c = .p) := by
  cases c <;> simp [branchTaken]

/-- BR is a jump, to the incremented PC itself where it is not taken (R121). -/
theorem exec_br (n z p : Bool) (off : BitVec 9) (s : State) :
    exec (.br n z p off) s =
      .next (s.setPc (if branchTaken n z p s.cond = true then s.pc + off.signExtend 16 else s.pc)) := by
  rw [← State.pcRelative_eq]
  show Host.Outcome.next (if branchTaken n z p s.cond = true then s.setPc (s.pcRelative off) else s) = _
  split <;> rfl

/-- JSR is the link and a jump (R123). -/
theorem exec_jsr (off : BitVec 11) (s : State) :
    exec (.jsr off) s = .next (s.link.setPc (s.pc + off.signExtend 16)) := by
  rw [← State.pcRelative_eq]
  rfl

/-- Settles O22: where the branch is taken is an overlap of the bits with COND, and PC the one thing BR writes. -/
theorem branchOnOverlap : Obligations.BranchOnOverlap := fun n z p off s =>
  ⟨_, exec_br n z p off s, fun h => if_pos (branchTaken_iff.mpr h), fun h => if_neg (mt branchTaken_iff.mp h), rfl,
    setPc_frame s _⟩

/-- Settles O24: the link leaves PC as it is, so the target is computed from the value in R7. -/
theorem jsrLinksAndJumps : Obligations.JsrLinksAndJumps := fun off s =>
  ⟨_, exec_jsr off s, s.link_reg_seven, rfl, rfl, link_setPc_frame s _⟩

end Sys2Proof.Machine

/-! PROOFS. The statements of the family 42_load_store. Every load but LEA ends in one read and one write of its
destination, and every store in one write of memory, so what such an end does and leaves unchanged is said once, for
any instruction. The state it starts from is that of the step, or for LDI and STI the one the pointer's read leaves. -/

namespace Sys2Proof.Machine

/-! The two ends. -/

/-- A store is none of the other writers (R25, R30). -/
theorem writes_of_isStore {i : Instr} (hi : i.isStore = true) :
    i.destRegs = [] ∧ i.writesCond = false ∧ i.writesPc = false := by
  cases i <;> cases hi <;> exact ⟨rfl, rfl, rfl⟩

/-- A read that does not poll leaves a load nothing to do but the write of its destination (R45). -/
theorem State.loadFrom_plain {s : State} {ea : Word} (h : ea ≠ s.params.kbsrAddr) (dr : Reg) :
    s.loadFrom ea dr = s.setDest dr (s.mem.readWord ea) := by
  rw [State.loadFrom, State.memRead_plain h]

/-- What an instruction does that ends in a load from the state `u` and writes no other register, nor PC. -/
theorem exec_loadFrom {i : Instr} {dr : Reg} {ea : Word} {s u : State} (h : exec i s = .next (u.loadFrom ea dr))
    (hdest : i.destRegs = [dr]) (hpc : i.writesPc = false) :
    ∃ t, exec i s = .next t ∧ t.reg dr = (u.memRead ea).1 ∧ t.cond = condOf (u.memRead ea).1 ∧ t.pc = s.pc ∧
      KeepsAllButRegs [dr] (u.memRead ea).2 t ∧ KeepsRegs [dr] s t ∧
      (ea ≠ u.params.kbsrAddr → t.reg dr = u.mem.readWord ea ∧ KeepsMem u t ∧ KeepsChannel u t) := by
  have hregs : KeepsRegs [dr] s (u.loadFrom ea dr) := hdest ▸ exec_keepsBy (keptBy_regs i s) h (.refl _ s)
  refine ⟨_, h, State.setDest_reg_self _ _ _, rfl, onlyTransfersMovePc i s _ h hpc, setDest_frame _ _ _, hregs,
    fun hplain => ?_⟩
  rw [State.loadFrom_plain hplain]
  obtain ⟨-, hmem, hchannel, -⟩ := setDest_frame u dr (u.mem.readWord ea)
  exact ⟨u.setDest_reg_self dr _, hmem, hchannel⟩

/-- What a store does that ends in a write of memory on the state `u`. -/
theorem exec_memWrite {i : Instr} {a v : Word} {s u : State} (h : exec i s = .next (u.memWrite a v))
    (hi : i.isStore = true) (hrun : KeepsRun s u) :
    ∃ t, exec i s = .next t ∧ (∀ c, t.mem.readWord c = if c = a then v else u.mem.readWord c) ∧
      t.cond = s.cond ∧ t.pc = s.pc ∧ KeepsRegs [] s t ∧ KeepsChannel u t ∧ KeepsRun s t := by
  obtain ⟨hdest, hcond, hpc⟩ := writes_of_isStore hi
  have hregs : KeepsRegs [] s (u.memWrite a v) := hdest ▸ exec_keepsBy (keptBy_regs i s) h (.refl _ s)
  exact ⟨_, h, fun c => Memory.readWord_writeWord u.mem a c v, onlyFlagWritersChangeCond i s _ h hcond,
    onlyTransfersMovePc i s _ h hpc, hregs, ⟨⟨rfl, rfl⟩, rfl, rfl⟩, hrun⟩

/-! The loads and stores with readable registers (R142 to R148). -/

section
variable {s : State} (r : Reg)

theorem exec_ld (off : BitVec 9) : exec (.ld r off) s = .next (s.loadFrom (s.pc + off.signExtend 16) r) := by
  rw [← State.pcRelative_eq]
  rfl

theorem exec_lea (off : BitVec 9) : exec (.lea r off) s = .next (s.setDest r (s.pc + off.signExtend 16)) := by
  rw [← State.pcRelative_eq]
  rfl

/-- LDI loads from its pointer, on the state the pointer's read leaves. -/
theorem exec_ldi {off : BitVec 9} {pointer : Word} {u : State}
    (hread : s.memRead (s.pc + off.signExtend 16) = (pointer, u)) :
    exec (.ldi r off) s = .next (u.loadFrom pointer r) := by
  rw [← State.pcRelative_eq] at hread
  simp only [exec, execLdi, hread]

theorem exec_ldr {base : Reg} (h : s.readable base = true) (off : BitVec 6) :
    exec (.ldr r base off) s = .next (s.loadFrom (s.reg base + off.signExtend 16) r) := by
  rw [← sext_eq_signExtend]
  exact congrArg _ (State.withReg_readable h _)

variable {r : Reg} (hr : s.readable r = true)
include hr

/-- STI stores where its pointer says, on the state the pointer's read leaves; that read leaves SR as it is. -/
theorem exec_sti {off : BitVec 9} {pointer : Word} {u : State}
    (hread : s.memRead (s.pc + off.signExtend 16) = (pointer, u)) :
    exec (.sti r off) s = .next (u.memWrite pointer (s.reg r)) := by
  obtain ⟨-, rfl⟩ := Prod.mk.inj hread
  rw [← State.pcRelative_eq] at hread ⊢
  simp only [exec, execSti, hread, State.storeTo]
  rw [State.withReg_readable (by simpa using hr), State.afterRead_reg]

theorem exec_str {base : Reg} (h : s.readable base = true) (off : BitVec 6) :
    exec (.str r base off) s = .next (s.memWrite (s.reg base + off.signExtend 16) (s.reg r)) := by
  rw [← sext_eq_signExtend]
  exact congrArg _ (State.withReg_withReg_readable h hr _)

end

/-- Settles O29: LD is one load at `pc + offset`. -/
theorem loadPcRelative : Obligations.LoadPcRelative := fun dr off _ => exec_loadFrom (exec_ld dr off) rfl rfl

/-- Settles O30: a pointer's read that does not poll leaves the state as it is, so the second read is made there. -/
theorem loadIndirect : Obligations.LoadIndirect := by
  intro dr off s u pointer hread
  obtain ⟨t, hexec, hdr, hcond, hpc, hframe, hregs, hplain⟩ := exec_loadFrom (exec_ldi dr hread) rfl rfl
  refine ⟨t, hexec, hdr, hcond, hpc, hframe, hregs, fun hfirst => ?_⟩
  obtain ⟨rfl, rfl⟩ := Prod.mk.inj (hread.symm.trans (State.memRead_plain hfirst))
  exact hplain

/-- Settles O31: the base is read before DR is written, so DR may be the base. -/
theorem loadBaseOffset : Obligations.LoadBaseOffset := fun dr _ off _ h => exec_loadFrom (exec_ldr dr h off) rfl rfl

/-- Settles O32: LEA is one write of its destination, with no read of memory. -/
theorem loadEffectiveAddress : Obligations.LoadEffectiveAddress := fun dr off _ => exec_setDest (exec_lea dr off)

/-- Settles O33: ST is one write of memory at `pc + offset`. -/
theorem storePcRelative : Obligations.StorePcRelative := fun _ off _ h =>
  exec_memWrite (exec_st h off) rfl ⟨rfl, rfl, rfl⟩

/-- Settles O34: the pointer's read leaves all but memory and the host's answers, and where it does not poll those
too. -/
theorem storeIndirect : Obligations.StoreIndirect := by
  intro sr off s u pointer h hread
  have hrun : KeepsRun s u := by
    obtain ⟨-, rfl⟩ := Prod.mk.inj hread
    exact ⟨s.afterRead_params _, s.afterRead_run _, s.afterRead_hold _⟩
  obtain ⟨t, hexec, hmem, hcond, hpc, hregs, hchannel, hrun⟩ := exec_memWrite (exec_sti h hread) rfl hrun
  exact ⟨t, hexec, hmem, hcond, hpc, hregs, hchannel, hrun,
    fun hplain => Prod.mk.inj (hread.symm.trans (State.memRead_plain hplain))⟩

/-- Settles O35: STR is one write of memory at the base plus the offset. -/
theorem storeBaseOffset : Obligations.StoreBaseOffset := fun _ _ off _ hr h =>
  exec_memWrite (exec_str hr h off) rfl ⟨rfl, rfl, rfl⟩

end Sys2Proof.Machine

/-! PROOFS. The statements of the family 43_trap_and_reserved: OUT, IN and HALT with a host that takes their output, the
fatal traps and opcodes, and a service that held. -/

namespace Sys2Proof.Machine

/-! Services whose output the host accepts (R172, R174, R176). -/

/-- A service sends one event after the link. -/
theorem State.link_withOutput_one {s : State} (ha : s.acceptsAll 1 = true) (event : OutEvent) (next : State → State) :
    s.link.withOutput [event] next = next (s.link.setOutput [event] (s.acceptsAfter 1)) :=
  State.withOutput_accepted (s := s.link) (events := [event]) ha next

/-- IN with its byte read: after the prompt the echo and its flush go out, and R0 is written last. -/
theorem exec_trapIn_echoed {s : State} {b : Byte} (hb : s.nextAnswer = .byte b)
    (ha : s.acceptsAll (s.params.inPrompt.length + 3) = true) :
    exec .trapIn s = .next ((s.prompted.takeAnswer.setOutput [.byte b, .flush]
      (s.acceptsAfter (s.params.inPrompt.length + 3))).setDest 0 (b.setWidth 16)) := by
  obtain ⟨hprompt, hecho⟩ := (s.acceptsAll_add s.promptEvents (s.params.inPrompt.length + 1) 2).mp ha
  have haccepts : s.prompted.takeAnswer.accepts =
      (s.setOutput s.promptEvents (s.acceptsAfter (s.params.inPrompt.length + 1))).accepts := by simp
  have hleft : s.prompted.takeAnswer.acceptsAfter 2 = s.acceptsAfter (s.params.inPrompt.length + 3) :=
    (State.acceptsAfter_congr haccepts 2).trans (s.acceptsAfter_add _ _ 2)
  rw [← State.acceptsAll_congr haccepts] at hecho
  rw [← hleft, exec_trapIn_prompted hprompt, State.withInput_byte (s := s.prompted) hb]
  exact congrArg _ (State.withOutput_accepted (events := [.byte b, .flush]) hecho _)

/-- Settles O37: OUT sends its byte after the link, and does no more. -/
theorem outWritesTheLowByte : Obligations.OutWritesTheLowByte := by
  intro s hr ha
  obtain ⟨h7, hcond, hpc, hregs⟩ := s.link_onlyLinked
  have hexec : exec .trapOut s = .next (s.link.setOutput [.byte ((s.reg 0).setWidth 8)] (s.acceptsAfter 1)) := by
    rw [exec_trapOut hr, State.link_withOutput_one ha, lowByte_eq, id]
  exact ⟨_, hexec, rfl, rfl, h7, hcond, hpc, hregs, fun _ => rfl, ⟨rfl, rfl⟩, rfl, rfl, rfl⟩

/-- Settles O40: the prompt and its flush go out before the read, the echo and its flush after it. -/
theorem inPromptsReadsAndEchoes : Obligations.InPromptsReadsAndEchoes := by
  intro s b hb ha
  have hexec := exec_trapIn_echoed hb ha
  obtain ⟨hpc, h7, -⟩ := exec_trap_linked .inService hexec
  exact ⟨_, hexec, by simp [State.promptEvents], rfl, State.setDest_reg_self _ _ _, h7, rfl, hpc,
    exec_keepsBy (keptBy_regs .trapIn s) hexec (.refl _ s), fun _ => by simp, State.takeAnswer_congr rfl rfl,
    by simp [KeepsRun, State.prompted]⟩

/-- Settles O42: HALT flushes after the link, then only the run state changes. -/
theorem haltFlushesAndHalts : Obligations.HaltFlushesAndHalts := by
  intro s ha
  obtain ⟨h7, hcond, hpc, hregs⟩ := s.link_onlyLinked
  have hexec : exec .trapHalt s = .next (s.link.setOutput [.flush] (s.acceptsAfter 1)).halt :=
    congrArg _ (State.link_withOutput_one ha .flush State.halt)
  exact ⟨_, hexec, rfl, rfl, h7, hpc, hcond, hregs, fun _ => rfl, ⟨rfl, rfl⟩, rfl, rfl, rfl, rfl⟩

/-! Traps and opcodes that are fatal (R177 to R179). -/

/-- Settles O43: the link is written before the stop, which changes the run state alone. -/
theorem unknownTrapIsFatal : Obligations.UnknownTrapIsFatal := by
  intro code s
  obtain ⟨h7, hcond, hpc, hregs⟩ := s.link_onlyLinked
  exact ⟨s.link.stop (.unknownTrap code), rfl, rfl, h7, hpc, hcond, hregs, fun _ => rfl, ⟨⟨rfl, rfl⟩, rfl, rfl⟩,
    rfl, rfl, rfl⟩

/-- What an instruction does that is no more than a stop. -/
theorem exec_stop {i : Instr} {reason : FatalReason} {s : State} (h : exec i s = .next (s.stop reason)) :
    ∃ t, exec i s = .next t ∧ t.run = .fatal reason ∧ t.pc = s.pc ∧ t.cond = s.cond ∧ KeepsRegs [] s t ∧
      KeepsMem s t ∧ KeepsChannel s t ∧ t.params = s.params ∧ t.hold = s.hold :=
  ⟨_, h, rfl, rfl, rfl, .refl [] s, fun _ => rfl, ⟨⟨rfl, rfl⟩, rfl, rfl⟩, rfl, rfl⟩

/-- Settles O44: RTI and RES are each a stop, under their own tags. -/
theorem reservedOpcodesAreFatal : Obligations.ReservedOpcodesAreFatal := fun _ => ⟨exec_stop rfl, exec_stop rfl⟩

/-! A service that held goes on where it stopped (R180, R242). -/

/-- The echo of IN goes out, or ends the run, without a hold. -/
theorem State.finishIn_hold (b : Byte) (s : State) : (State.finishIn b s).hold = s.hold := by
  rcases s.withOutput_cases [.byte b, .flush] fun u => u.setDest 0 (b.setWidth 16) with ⟨-, e⟩ | ⟨_, -, -, e⟩ <;>
    simp [State.finishIn, e]

/-- The step after a blocking read that held is that read, made of the answer after the one that was no byte. -/
theorem step_withInput_held {u : State} {hd : Hold} {next : Byte → State → State} (hrun : u.run = .running)
    (hhold : u.hold = none) (hnext : ∀ b v, (next b v).hold = v.hold)
    (hresume : ∀ v : State, v.resume hd = (v.setHold none).withInput hd next)
    (hheld : (u.withInput hd next).hold ≠ none) :
    step (u.withInput hd next) = .next (u.takeAnswer.withInput hd next) := by
  have hidle : u.takeAnswer.hold = none := u.takeAnswer_hold.trans hhold
  rcases u.withInput_cases hd next with ⟨b, -, e⟩ | ⟨-, e⟩ | ⟨-, e⟩ <;> rw [e] at hheld ⊢
  · exact absurd ((hnext b _).trans hidle) hheld
  · have hself : (u.takeAnswer.setHold (some hd)).setHold none = u.takeAnswer :=
      State.setHold_self (s := u.takeAnswer) hidle
    rw [step_held (s := u.takeAnswer.setHold (some hd)) (u.takeAnswer_run.trans hrun) rfl, hresume, hself]
  · exact absurd hidle hheld

/-- The link, the prompt and its flush do not depend on the answers to come. -/
theorem State.takeAnswer_prompted (s : State) : s.prompted.takeAnswer = s.takeAnswer.prompted := by
  have hevents : s.takeAnswer.promptEvents = s.promptEvents := by simp [State.promptEvents]
  rw [State.prompted, State.takeAnswer_setOutput, State.takeAnswer_link, State.prompted, hevents,
    State.acceptsAfter_congr s.takeAnswer_accepts]

/-- IN holds only at its read, so only once the host has accepted its prompt. -/
theorem acceptsAll_of_exec_trapIn_held {s t : State} (hs : s.Idle) (hheld : t.hold ≠ none)
    (h : exec .trapIn s = .next t) : s.acceptsAll (s.params.inPrompt.length + 1) = true := by
  by_contra hrefused
  obtain ⟨k, hk, hlt⟩ := (s.acceptsAll_false_iff _).mp (Bool.eq_false_iff.mpr hrefused)
  obtain ⟨-, -, hprompt, -⟩ := outputFailureIsFatal s k hk
  obtain ⟨t', ht', hfatal, -⟩ := hprompt hlt
  obtain rfl := Host.Outcome.next.inj (h.symm.trans ht')
  have hrun : t.run = .running := exec_holdRunning h hs hheld
  cases hrun.symm.trans hfatal

/-- Settles O48: what GETC and IN do before their read leaves the answers as they are, so a step that goes on from that
read is the TRAP with one answer fewer. -/
theorem heldServiceEndsAsOneStep : Obligations.HeldServiceEndsAsOneStep := by
  intro s t hrun hhold hheld
  refine ⟨fun h => ?_, fun h => ?_⟩
  · obtain rfl : s.link.withInput .getc State.finishGetc = t := Host.Outcome.next.inj h
    rw [step_withInput_held (u := s.link) (next := State.finishGetc) hrun hhold (fun _ _ => rfl) (fun _ => rfl) hheld,
      State.takeAnswer_link]
    rfl
  · have ha := acceptsAll_of_exec_trapIn_held ⟨hrun, hhold⟩ hheld h
    have ha' : s.takeAnswer.acceptsAll (s.takeAnswer.params.inPrompt.length + 1) = true := by
      rw [s.takeAnswer_params, State.acceptsAll_congr s.takeAnswer_accepts, ha]
    obtain rfl := Host.Outcome.next.inj ((exec_trapIn_prompted ha).symm.trans h)
    rw [step_withInput_held (u := s.prompted) hrun hhold State.finishIn_hold (fun _ => rfl) hheld,
      exec_trapIn_prompted ha', State.takeAnswer_prompted]

end Sys2Proof.Machine

/-! PROOFS. The statements of the family 70_reset_and_hazards: the malformed images, and what reset leaves. -/

namespace Sys2Proof.Machine

/-! The loader's reports (R233). -/

/-- Bytes in odd number are no words: the last byte has no partner. -/
theorem imageWords_of_odd (bytes : List Byte) (hodd : bytes.length % 2 = 1) : imageWords bytes = none := by
  induction bytes using imageWords.induct with
  | case1 => simp at hodd
  | case2 => rfl
  | case3 hi lo rest ih =>
    have hrest : rest.length % 2 = 1 := by
      rw [List.length_cons, List.length_cons] at hodd
      omega
    rw [imageWords, ih hrest, Option.map_none]

/-- An odd number of bytes is reported by its length alone: one byte as no origin, more as a truncated word. -/
theorem loadImage_of_odd {bytes : List Byte} (hodd : bytes.length % 2 = 1) :
    loadImage bytes = if bytes.length < 2 then .error .noOrigin else .error .truncatedWord := by
  rw [loadImage, imageWords_of_odd bytes hodd]

/-- Settles O60: an odd number of bytes ends in a word without its low byte, and an even number is its words, which are
none or an origin and the words to place. -/
theorem malformedImagesAreReported : Obligations.MalformedImagesAreReported := by
  refine ⟨fun bytes hshort => ?_, fun bytes hlen hodd => ?_, fun origin words hpast => ?_⟩
  · obtain hnone | hone : bytes.length = 0 ∨ bytes.length = 1 := by omega
    · rw [List.length_eq_zero_iff.mp hnone]
      rfl
    · exact (loadImage_of_odd (by omega)).trans (if_pos hshort)
  · exact (loadImage_of_odd hodd).trans (if_neg (by omega))
  · rw [loadImage, imageWords_bytes]
    exact if_neg (by omega)

/-! Reset (R230). -/

@[simp] theorem State.resetFor_reg (p : Params) (r : Reg) : (State.resetFor p).reg r = resetGpr :=
  Vector.getElem_replicate r.isLt

/-- No instruction has written a register at reset, so only `GPR_RESET_MODE` makes one readable (R23). -/
@[simp] theorem State.resetFor_readable (p : Params) (r : Reg) :
    (State.resetFor p).readable r = decide (p.gprResetMode = .zero) := by
  have hwritten : (State.resetFor p).written[r] = false := Vector.getElem_replicate r.isLt
  rw [State.readable, hwritten, Bool.or_false, State.resetFor_params]

/-- Settles O1, field by field of the state after reset. -/
theorem resetLeavesTheStatedValues : Obligations.ResetLeavesTheStatedValues :=
  ⟨fun p => ⟨State.resetFor_params p, State.resetFor_pc p, State.resetFor_cond p, State.resetFor_run p,
    State.resetFor_reg p, State.resetFor_readable p, Memory.readWord_nil⟩, rfl⟩

end Sys2Proof.Machine
